-- ==== Sys2Proof/Config.lean ====
section
/-! DEFINITION. The implementation parameters of 00_scope.md R4 that are not fixed by the source, as plain data that the
functions which depend on them take as an argument (assumption log 17). The machine itself depends on none of them. -/

namespace Sys2Proof

/-- The port widths of R4: `CH_W`, of each color channel; `BRI_W`, of the signed brightness value. -/
structure Params where
  chW : Nat
  briW : Nat
  deriving DecidableEq, Repr

/-- R4: `CH_W >= 8`, `BRI_W >= 9`. -/
def Params.wf (p : Params) : Bool :=
  decide (8 ≤ p.chW) && decide (9 ≤ p.briW)

/-- The defaults R4 gives, `CH_W = 8` and `BRI_W = 16`. -/
def Params.default : Params := { chW := 8, briW := 16 }

/-- R4: `1 <= LED_COUNT <= 65536`. The pixel count is the argument `n` of the client's sequences (R121, R122). -/
def ledCountOk (n : Nat) : Bool := decide (1 ≤ n) && decide (n ≤ 65536)

/-- The largest SET_PIXEL index, `IDX_W = 16` (R4, R101). -/
abbrev maxIndex : Nat := 65535

end Sys2Proof
end

