-- ==== Sys2Proof/Word.lean ====
section
/-! DEFINITION. The unit of the block's data path: a byte (00_scope.md R6). -/

namespace Sys2Proof

/-- A wire byte, `BYTE_W = 8` bits (R4); bit 0 is the least significant (R6). -/
abbrev Byte := BitVec 8

end Sys2Proof
end

