-- ==== Sys2Proof/Syntax.lean ====
section
/-! DEFINITION. The command set: the request as the command port carries it, and one constructor of `Instr` for each row
of the opcode table. -/

namespace Sys2Proof

/-- A command request `c = (code, index, r, g, b, value)`, the fields sampled in one command handshake (10_state.md R27,
30_encoding.md R67). The index and the channels are naturals and the brightness an integer, without a width: R4 admits
that, and R101 names what an index above 16 bits then does (log 3). -/
structure Request where
  code : Byte
  index : Nat
  r : Nat
  g : Nat
  b : Nat
  value : Int
  deriving DecidableEq, Repr

/-- The commands, one constructor per row of spec/opcode_table.json, each with the request fields R67 says it reads. -/
inductive Instr where
  /-- SHOW, code `0x04` (R103). -/
  | showCmd
  /-- SET_PIXEL, code `0x10` (R101). -/
  | setPixel (index r g b : Nat)
  /-- BRIGHTNESS, code `0x13` (R102). -/
  | brightness (value : Int)
  /-- RESERVED, any other code (R104). -/
  | reserved (code : Byte)
  deriving DecidableEq, Repr

/-- Command code of SHOW (30_encoding.md R66). -/
def codeShow : Byte := 0x04#8
/-- Command code of SET_PIXEL (R66). -/
def codeSetPixel : Byte := 0x10#8
/-- Command code of BRIGHTNESS (R66). -/
def codeBrightness : Byte := 0x13#8

end Sys2Proof
end

