-- ==== Sys2Proof/WellFormed.lean ====
section
/-! DEFINITION. Which commands a command port of given widths can present: the domain of the encoding. -/

namespace Sys2Proof

/-- R66, R104: a code is reserved when it is none of `0x04`, `0x10`, `0x13`. -/
def isReservedCode (c : Byte) : Bool :=
  c != codeShow && c != codeSetPixel && c != codeBrightness

/-- An unsigned value fits a port of `w` bits. -/
def fitsUnsigned (w v : Nat) : Bool := decide (v < 2 ^ w)

/-- An integer fits a two's complement port of `w` bits, `-2^(w-1)` to `2^(w-1) - 1` (R6, R88). -/
def fitsSigned (w : Nat) (v : Int) : Bool :=
  decide (-(2 ^ (w - 1) : Int) ≤ v) && decide (v < (2 ^ (w - 1) : Int))

/-- A command whose operands fit the port: the index 16 bits, each channel `CH_W` bits, the value `BRI_W` bits signed
(R27), and a reserved command whose code is reserved (R104). -/
def Instr.wf (p : Params) : Instr → Bool
  | .showCmd => true
  | .setPixel index r g b =>
      fitsUnsigned 16 index && fitsUnsigned p.chW r && fitsUnsigned p.chW g && fitsUnsigned p.chW b
  | .brightness value => fitsSigned p.briW value
  | .reserved code => isReservedCode code

end Sys2Proof
end

