-- ==== Sys2Proof/Decode.lean ====
section
/-! DEFINITION. From a request to a command and back: the code map of 30_encoding.md R66 and R67, total on every request;
and the request as one word of port wires, which the host's table numbering needs (log 4). -/

namespace Sys2Proof

/-- The command a request stands for. The code alone selects it (R66), and only the fields R67 says the code reads are
taken from the request, so a don't-care field is dropped here (R105). Total: a code outside the map is the command
RESERVED (R104). -/
def decodeRequest (c : Request) : Instr :=
  if c.code = codeShow then .showCmd
  else if c.code = codeSetPixel then .setPixel c.index c.r c.g c.b
  else if c.code = codeBrightness then .brightness c.value
  else .reserved c.code

/-- Why a word is no request: it has a bit above the port's last wire. -/
inductive DecodeError where
  | wordTooWide
  deriving DecidableEq, Repr

/-- The number of wires of the command port's fields: code 8, index 16, three channels of `CH_W`, value `BRI_W` (R27). -/
def Params.requestBits (p : Params) : Nat := 24 + 3 * p.chW + p.briW

/-- `v[lo+w-1 : lo]` of R6: the `w` bits of `v` from bit `lo` up. -/
def bitField (v lo w : Nat) : Nat := v / 2 ^ lo % 2 ^ w

/-- The request a word of port wires carries. The fields lie in the order of R27's table, the code in bits 7..0
(DESIGN CHOICE, log 4: the spec gives the fields and their widths and no single word). The value is two's complement
(R27). -/
def requestOfWord (p : Params) (w : Nat) : Request :=
  { code := BitVec.ofNat 8 (bitField w 0 8)
    index := bitField w 8 16
    r := bitField w 24 p.chW
    g := bitField w (24 + p.chW) p.chW
    b := bitField w (24 + 2 * p.chW) p.chW
    value := (BitVec.ofNat p.briW (bitField w (24 + 3 * p.chW) p.briW)).toInt }

/-- Decode a word of port wires: refused by name where the word is wider than the port, else the command of its request. -/
def decodeWord (p : Params) (w : Nat) : Except DecodeError Instr :=
  if w < 2 ^ p.requestBits then .ok (decodeRequest (requestOfWord p w)) else .error .wordTooWide

/-- The host's entry: the command whose word is `w`, all bits from `nbits` up being 0, at the default widths of R4. -/
def decodeTableWord (nbits w : Nat) : Option Instr :=
  (decodeWord Params.default (w % 2 ^ nbits)).toOption

/-- The request of a command, 30_encoding.md R71; a don't-care field is 0. -/
def encodeRequest : Instr → Request
  | .showCmd => ⟨codeShow, 0, 0, 0, 0, 0⟩
  | .setPixel index r g b => ⟨codeSetPixel, index, r, g, b, 0⟩
  | .brightness value => ⟨codeBrightness, 0, 0, 0, 0, value⟩
  | .reserved code => ⟨code, 0, 0, 0, 0, 0⟩

/-- The word of port wires that carries a request (log 4). -/
def wordOfRequest (p : Params) (c : Request) : Nat :=
  c.code.toNat + 2 ^ 8 * c.index + 2 ^ 24 * c.r + 2 ^ (24 + p.chW) * c.g + 2 ^ (24 + 2 * p.chW) * c.b
    + 2 ^ (24 + 3 * p.chW) * (BitVec.ofInt p.briW c.value).toNat

/-- The word of a well-formed command. -/
def encode (p : Params) (i : Instr) : Nat := wordOfRequest p (encodeRequest i)

end Sys2Proof
end

