-- ==== Sys2Proof/Machine/State.lean ====
section
/-! DEFINITION. The state of the block (10_state.md R20, R26; 60_exceptions.md R141; 70_reset_and_hazards.md R171), the
inputs its ports are driven with (R27, R28, R170), and the reasons a step can stop. -/

namespace Sys2Proof.Machine

/-- R21: whether a frame is in flight. -/
inductive Phase where
  | idle
  | emit
  deriving DecidableEq, Repr

/-- The closed list of reasons of R141. -/
inductive RefuseReason where
  /-- The request's code is none of `0x04`, `0x10`, `0x13`. -/
  | reservedCode (code : Byte)
  /-- A SET_PIXEL index above 65535. -/
  | indexOutOfRange (index : Nat)
  deriving DecidableEq, Repr

/-- A truncation event of R171: a reset taken with `pos > 0`. `sent` is the `pos` at the reset, the number of bytes of the
cut frame that are on the stream; `streamLength` is the length of the stream at the reset (log 9). -/
structure Truncation where
  sent : Nat
  streamLength : Nat
  deriving DecidableEq, Repr

/-- What the outside world drives on the block's inputs in one step (log 1): the reset input (R170); the command port,
`none` for `cmd_valid = 0` and the presented request for `cmd_valid = 1` (R27); `out_ready` (R28). -/
structure PortInputs where
  reset : Bool
  cmd : Option Request
  outReady : Bool
  deriving DecidableEq, Repr

/-- Nothing is driven: no reset, no request, a sink that does not take. -/
def PortInputs.quiet : PortInputs := { reset := false, cmd := none, outReady := false }

/-- The block, its event history and the inputs to come. -/
structure State where
  /-- R21. -/
  phase : Phase
  /-- R22: the frame offset of the next byte to emit. -/
  pos : Nat
  /-- R23: the length of the frame in flight; `none` is the spec's "no value", which it has in `IDLE` (log 5). -/
  flen : Option Nat
  /-- R24: the bytes of the latch `fb[0..10]` that hold a value, offset 0 first: `fb[k]` is entry `k`, and an offset at or
  beyond the length of the list holds no value; `[]` is the spec's "no value" of the whole latch (log 5, log 6). -/
  fb : List Byte
  /-- R25: the running CRC-8. -/
  crc : Byte
  /-- R26: every byte emitted, in emission order. -/
  stream : List Byte
  /-- R141: the refused mark. -/
  refused : Option RefuseReason
  /-- R171: the truncation events, oldest first. -/
  truncations : List Truncation
  /-- The model's own: the port inputs of the steps to come, the next step's first (log 1). -/
  inputs : List PortInputs
  deriving DecidableEq, Repr

/-- The one fault of the model. The block raises no exception (R140). -/
inductive Fault where
  /-- Raised by the output handshake, in a state with `phase = EMIT` in which neither R92 nor R93 has a byte to hand over:
  `flen` or `fb[pos]` has no value, or `pos` is past the frame. No step leads to such a state (R34). Safe (log 10). -/
  | noByteToEmit
  deriving DecidableEq, Repr

/-- The refusals. -/
inductive Refusal where
  /-- Raised by `exec` for a command without a meaning. None is left. Safe. -/
  | notModelled (mnemonic : String)
  /-- Raised by every step but reset of a state that carries the refused mark (R141, R95 case 3). Safe: nothing is claimed
  of a run past a refused request (log 7). -/
  | marked (reason : RefuseReason)
  deriving DecidableEq, Repr

/-- The machine at power-on: the reset values of R20 and R170, an empty stream (R26), no refused mark and no truncation
(95_test_vectors.md section 3), and no inputs driven (log 2, log 11). -/
def State.reset : State :=
  { phase := .idle
    pos := 0
    flen := none
    fb := []
    crc := 0x00#8
    stream := []
    refused := none
    truncations := []
    inputs := [] }

end Sys2Proof.Machine
end

