-- ==== Sys2Proof/Machine/Flags.lean ====
section
/-! DEFINITION. The status the block shows. It has no flags and no condition codes (10_state.md R31); the port outputs are
functions of the state alone (R29). -/

namespace Sys2Proof.Machine

/-- `cmd_ready` of R29. -/
def State.cmdReady (s : State) : Bool := decide (s.phase = .idle)

/-- `out_valid` of R29. -/
def State.outValid (s : State) : Bool := decide (s.phase = .emit)

/-- The condition `pos = flen-1` of R29 and R93. -/
def State.atLastByte (s : State) : Bool := decide (s.flen = some (s.pos + 1))

/-- `out_data` of R29; it carries no value in `IDLE`. -/
def State.outData (s : State) : Option Byte :=
  match s.phase with
  | .idle => none
  | .emit => if s.atLastByte then some s.crc else s.fb[s.pos]?

/-- `out_last` of R28 and R29; it carries no value in `IDLE`. -/
def State.outLast (s : State) : Option Bool :=
  match s.phase with
  | .idle => none
  | .emit => some s.atLastByte

end Sys2Proof.Machine
end

