-- ==== Sys2Proof/Machine/Operands.lean ====
section
/-! DEFINITION. Operand assembly and frame building: little-endian packing, the channel mask, the brightness clamp, the
pixel-color serializer and the frame (30_encoding.md R60 to R68, 41_checksum_and_framing.md R86 to R90, 42_commands.md
R100). -/

namespace Sys2Proof.Machine

/-- `le16(n)` of R86: `[ n[7:0], n[15:8] ]`. -/
def le16 (n : Nat) : List Byte :=
  [BitVec.ofNat 8 n, BitVec.ofNat 8 (n / 256)]

/-- `mask8(v)` of R87: the low 8 bits of a channel. It wraps. -/
def mask8 (v : Nat) : Byte :=
  BitVec.ofNat 8 (v &&& 0xFF)

/-- `clamp8(v)` of R88: the brightness clamp. It saturates. -/
def clamp8 (v : Int) : Byte :=
  if v < 0 then 0x00#8 else if v > 255 then 0xFF#8 else BitVec.ofInt 8 v

/-- `pixel_payload(index, r, g, b)` of R89. -/
def pixelPayload (index r g b : Nat) : List Byte :=
  le16 index ++ [mask8 r, mask8 g, mask8 b]

/-- `MARKER0` (R4, R61). -/
def marker0 : Byte := 0xA5#8

/-- `MARKER1` (R4, R61). -/
def marker1 : Byte := 0x5A#8

/-- The covered bytes of a frame, offsets 2 to `4+L` (R83): command, length low and high, payload. The block writes the
length of the payload itself (R63). -/
def frameBody (cmd : Byte) (p : List Byte) : List Byte :=
  [cmd] ++ le16 p.length ++ p

/-- `frame(cmd, p)` of R90. -/
def frame (cmd : Byte) (p : List Byte) : List Byte :=
  [marker0, marker1] ++ frameBody cmd p ++ [crc8 (frameBody cmd p)]

/-- The command byte of a request for the command (R62, R66). -/
def cmdByte : Instr → Byte
  | .showCmd => codeShow
  | .setPixel _ _ _ _ => codeSetPixel
  | .brightness _ => codeBrightness
  | .reserved code => code

/-- `payload_of(c)` of R100 on its domain; `none` for the requests that are refused (R101, R104). -/
def payloadOf : Instr → Option (List Byte)
  | .showCmd => some []
  | .setPixel index r g b => if index ≤ maxIndex then some (pixelPayload index r g b) else none
  | .brightness value => some [clamp8 value]
  | .reserved _ => none

/-- `frame_of(c)` of R100 on its domain; `none` for the requests that are refused. -/
def frameOf (i : Instr) : Option (List Byte) :=
  (payloadOf i).map (frame (cmdByte i))

end Sys2Proof.Machine
end

