-- ==== Sys2Proof/Machine/Ops.lean ====
section
/-! DEFINITION. The shared operations: sampling the inputs, the command handshake (41_checksum_and_framing.md R91), the
output handshake (R92, R93), refusing (60_exceptions.md R141) and reset (70_reset_and_hazards.md R170 to R172).

The block has no memory (20_memory.md R40) and no registers (10_state.md R30), and it raises and returns from no exception
(R140, R146), so there is no operation for these. -/

namespace Sys2Proof.Machine

/-- What a step of the block answers. -/
abbrev StepOutcome := Host.Outcome State Fault Refusal

/-- The inputs the next step samples; nothing is driven past the end of the list (log 2). -/
def State.ports (s : State) : PortInputs := s.inputs.headD PortInputs.quiet

/-- The inputs of this step are spent. -/
def State.advance (s : State) : State := { s with inputs := s.inputs.tail }

/-- `Emit(b)` of R7: the byte is appended to the output stream. -/
def State.emit (b : Byte) (s : State) : State := { s with stream := s.stream ++ [b] }

/-- `refuse <Reason>` of R7 and R141: the whole state is marked. -/
def State.refuse (reason : RefuseReason) (s : State) : State := { s with refused := some reason }

/-- The writes of the accept step, R91 from `body` on, for a command byte and a payload. No byte is emitted. -/
def State.accept (cmd : Byte) (p : List Byte) (s : State) : State :=
  { s with
    fb := [marker0, marker1] ++ frameBody cmd p
    flen := some (p.length + 6)
    pos := 0
    crc := crcInit
    phase := .emit }

/-- The command handshake `Accept(c)` around the effect of the request (R7, R27, R91). A marked state has no step
(R95 case 3, log 7). While a frame is in flight `cmd_ready = 0` and the request is not taken: it stays with the client
(R174, log 8). -/
def commandHandshake (effect : State → State) (s : State) : StepOutcome :=
  match s.refused with
  | some reason => .refused (.marked reason)
  | none =>
    match s.phase with
    | .emit => .next s
    | .idle => .next (effect s)

/-- The checksum register after the byte at frame offset `pos`: offsets 0 and 1, the markers, leave it unchanged, every
later one is covered (R83, R92). -/
def crcAfter (pos : Nat) (c b : Byte) : Byte := if 2 ≤ pos then crc8Step c b else c

/-- The writes of the emit step R92 for the byte `b = fb[pos]`. -/
def State.emitByte (b : Byte) (s : State) : State :=
  { s.emit b with
    crc := crcAfter s.pos s.crc b
    pos := s.pos + 1 }

/-- The writes of the final-byte step R93. Back in `IDLE`, `flen` and `fb` have no value (R23, R24, log 5). -/
def State.finalByte (s : State) : State :=
  { s.emit s.crc with
    crc := 0x00#8
    pos := 0
    phase := .idle
    flen := none
    fb := [] }

/-- The output handshake in `EMIT`: the final-byte step R93 at `pos = flen-1`, the emit step R92 below it. Where neither
is enabled with a byte to hand over, a fault that no step leads to (log 10). -/
def outputHandshake (s : State) : StepOutcome :=
  match s.flen, s.fb[s.pos]? with
  | some n, b =>
    if s.pos + 1 = n then .next s.finalByte
    else if s.pos + 1 < n then
      match b with
      | some byte => .next (s.emitByte byte)
      | none => .fault .noByteToEmit
    else .fault .noByteToEmit
  | none, _ => .fault .noByteToEmit

/-- The truncation events a reset records: one where `pos > 0`, none otherwise (R171). -/
def truncationAt (pos streamLength : Nat) : List Truncation :=
  if 0 < pos then [{ sent := pos, streamLength := streamLength }] else []

/-- The reset event of R170, with the truncation event of R171 where `pos > 0`. The stream and the refused mark stay
(R172). -/
def State.resetBlock (s : State) : State :=
  { s with
    phase := .idle
    pos := 0
    crc := 0x00#8
    flen := none
    fb := []
    truncations := s.truncations ++ truncationAt s.pos s.stream.length }

/-- The inputs of a step that presents a request and drives nothing else. -/
def PortInputs.present (c : Request) : PortInputs := { reset := false, cmd := some c, outReady := false }

/-- The inputs of a step in which the sink takes a byte and nothing else is driven. -/
def PortInputs.take : PortInputs := { reset := false, cmd := none, outReady := true }

/-- The inputs of a step in which reset is asserted and nothing else is driven. -/
def PortInputs.assertReset : PortInputs := { reset := true, cmd := none, outReady := false }

end Sys2Proof.Machine
end

