-- ==== Sys2Proof/Machine/Commands.lean ====
section
/-! DEFINITION. The meanings of the commands: what the accept step does for each row of the opcode table
(41_checksum_and_framing.md R91, 42_commands.md R101 to R104). -/

namespace Sys2Proof.Machine

/-- SHOW (R103): the frame has no payload. -/
def execShow (s : State) : StepOutcome :=
  commandHandshake (State.accept codeShow []) s

/-- SET_PIXEL (R101): the payload is the index and the masked channels; an index above 65535 is refused (R91). -/
def execSetPixel (index r g b : Nat) (s : State) : StepOutcome :=
  commandHandshake
    (if index ≤ maxIndex then State.accept codeSetPixel (pixelPayload index r g b)
      else State.refuse (.indexOutOfRange index)) s

/-- BRIGHTNESS (R102): the payload is the clamped value. -/
def execBrightness (value : Int) (s : State) : StepOutcome :=
  commandHandshake (State.accept codeBrightness [clamp8 value]) s

/-- RESERVED (R104): no byte, and the whole state is marked refused (R141). -/
def execReserved (code : Byte) (s : State) : StepOutcome :=
  commandHandshake (State.refuse (.reservedCode code)) s

end Sys2Proof.Machine
end

