-- ==== Sys2Proof/Machine/Dispatch.lean ====
section
/-! DEFINITION. One arm per command. -/

namespace Sys2Proof.Machine

def exec (i : Instr) (s : State) : Host.Outcome State Fault Refusal :=
  match i with
  | .showCmd => Sys2Proof.Machine.execShow s
  | .setPixel index r g b => Sys2Proof.Machine.execSetPixel index r g b s
  | .brightness value => Sys2Proof.Machine.execBrightness value s
  | .reserved code => Sys2Proof.Machine.execReserved code s

end Sys2Proof.Machine
end

