-- ==== Sys2Proof/Machine/Step.lean ====
section
/-! DEFINITION. One step: the input ports are sampled once, and at most one of reset, the command handshake and the output
handshake happens (00_scope.md R5, 41_checksum_and_framing.md R95, 60_exceptions.md R145). -/

namespace Sys2Proof.Machine

/-- Sample the inputs. Reset wins over a handshake (R145), and is the one step a marked state has (R172, log 7). In `IDLE` a
presented request is taken and executed; in `EMIT` the sink takes a byte or not. With no handshake the block does nothing
(R95 cases 1 and 2). -/
def step (s : State) : Host.Outcome State Fault Refusal :=
  if s.ports.reset then .next s.advance.resetBlock
  else
    match s.refused with
    | some reason => .refused (.marked reason)
    | none =>
      match s.phase with
      | .idle =>
        match s.ports.cmd with
        | none => .next s.advance
        | some c => exec (decodeRequest c) s.advance
      | .emit => if s.ports.outReady then outputHandshake s.advance else .next s.advance

/-- `s` with the command of word `w` presented at the command port in the next step (log 11): its request stands in the
first record of `inputs`, reset is not asserted there, and the block is in `IDLE` without a refused mark, with what that
phase takes (`pos`, `crc`, no latched frame), so that the handshake happens. -/
def State.withFetchWord (s : State) (nbits w : Nat) : State :=
  { s with
    phase := .idle
    pos := 0
    flen := none
    fb := []
    crc := 0x00#8
    refused := none
    inputs :=
      { reset := false
        cmd := some (requestOfWord Params.default (w % 2 ^ nbits))
        outReady := s.ports.outReady } :: s.inputs.tail }

end Sys2Proof.Machine
end

