-- ==== Sys2Proof/Machine/Reader.lean ====
section
/-! DEFINITION. How a reader of the stream who stands at a frame's start finds the frame's end (30_encoding.md R69). The
block has no reader; this is the spec's rule about its output. -/

namespace Sys2Proof.Machine

/-- R69: the frame is `6 + (byte3 | byte4 << 8)` bytes. -/
def frameLengthAt : List Byte → Option Nat
  | _ :: _ :: _ :: lo :: hi :: _ => some (6 + (lo.toNat ||| hi.toNat <<< 8))
  | _ => none

/-- The frame at the head of the stream and what follows it. -/
def readFrame (s : List Byte) : Option (List Byte × List Byte) :=
  match frameLengthAt s with
  | some n => if n ≤ s.length then some (s.take n, s.drop n) else none
  | none => none

/-- At most `fuel` frames from the head of the stream. -/
def readFrames : Nat → List Byte → List (List Byte)
  | 0, _ => []
  | fuel + 1, s =>
    match readFrame s with
    | some (f, rest) => f :: readFrames fuel rest
    | none => []

end Sys2Proof.Machine
end

