-- ==== Sys2Proof/Machine/Sequences.lean ====
section
/-! DEFINITION. The frame sequences of 43_frame_sequences.md: named lists of commands the client issues back to back. The
block never sees the name (30_encoding.md R72). The spec leaves the order of the SET_PIXEL frames open (R120), so the order
is an argument and every admitted order is a sequence (log 12). -/

namespace Sys2Proof.Machine

/-- A changed pixel of a REDRAW list, with its color after the change (R125). -/
structure PixelColor where
  index : Nat
  r : Nat
  g : Nat
  b : Nat
  deriving DecidableEq, Repr

/-- The five pseudo-instructions of R121 to R125, with the order in which the client sends the pixels. -/
inductive Sequence where
  /-- `BLACKOUT n` (R121). -/
  | blackout (n : Nat) (order : List Nat)
  /-- `FILL_ALL n, r, g, b` (R122). -/
  | fillAll (n : Nat) (order : List Nat) (r g b : Nat)
  /-- `BRIGHTNESS_SHOW v` (R123). -/
  | brightnessShow (v : Int)
  /-- `SHOW_NOW` (R124). -/
  | showNow
  /-- `REDRAW list` (R125). -/
  | redraw (list : List PixelColor)
  deriving DecidableEq, Repr

/-- Why a sequence has no expansion. -/
inductive SequenceError where
  /-- The pixel count is outside 1 to 65536 (R4, R121; 92_eei_decisions.md D16). -/
  | pixelCountOutOfRange
  /-- The order does not send each index of `0 .. n-1` exactly once (R120). -/
  | orderNotAdmitted
  /-- A REDRAW list names an index twice (R125). -/
  | indexRepeated
  deriving DecidableEq, Repr

/-- R120 item 3: an order that sends each required index `0 .. n-1` exactly once. -/
def orderAdmitted (n : Nat) (order : List Nat) : Bool := order.isPerm (List.range n)

/-- SET_PIXEL of one color for each index of the order, then exactly one SHOW (R121, R122). -/
def paintAll (order : List Nat) (r g b : Nat) : List Instr :=
  order.map (fun index => .setPixel index r g b) ++ [.showCmd]

/-- A sweep over all `n` pixels, refused by name where the count or the order is not admitted. -/
def sweep (n : Nat) (order : List Nat) (r g b : Nat) : Except SequenceError (List Instr) :=
  if ledCountOk n then
    if orderAdmitted n order then .ok (paintAll order r g b) else .error .orderNotAdmitted
  else .error .pixelCountOutOfRange

/-- REDRAW (R125): SET_PIXEL for each changed pixel, then exactly one SHOW; for an empty list nothing at all. -/
def redrawCommands (list : List PixelColor) : List Instr :=
  if list.isEmpty then []
  else list.map (fun x => Instr.setPixel x.index x.r x.g x.b) ++ [.showCmd]

/-- The commands a sequence expands to, R121 to R125. -/
def Sequence.expand : Sequence → Except SequenceError (List Instr)
  | .blackout n order => sweep n order 0 0 0
  | .fillAll n order r g b => sweep n order r g b
  | .brightnessShow v => .ok [.brightness v, .showCmd]
  | .showNow => .ok [.showCmd]
  | .redraw list =>
    if (list.map PixelColor.index).Nodup then .ok (redrawCommands list) else .error .indexRepeated

/-- The steps of a ControlLoop tick that issue a sequence (R126). -/
inductive TickStage where
  | quitCheck
  | oneShot
  | heldBrightness
  | redraw
  deriving DecidableEq, Repr

/-- The place of a stage among the tick's steps, in the order R126 lists them: poll 1, quit check 2, one-shot actions 3,
held brightness keys 4, pen adjustment 5, movement 6, redraw 7. -/
def TickStage.rank : TickStage → Nat
  | .quitCheck => 2
  | .oneShot => 3
  | .heldBrightness => 4
  | .redraw => 7

/-- Which sequences R126 lets a stage issue. -/
def TickStage.issues : TickStage → Sequence → Bool
  | .quitCheck, .blackout _ _ => true
  | .oneShot, .fillAll _ _ _ _ _ => true
  | .oneShot, .blackout _ _ => true
  | .oneShot, .showNow => true
  | .heldBrightness, .brightnessShow _ => true
  | .redraw, .redraw _ => true
  | _, _ => false

/-- R126: the sequences of one tick, in the order they reach the stream, come from stages in step order. The order of
one-shot actions among themselves is left open, so equal stages may stand in any order (log 19).

DESIGN CHOICE (log 19): R126 and 90_conflicts.md C7 leave open whether anything follows the quit BLACKOUT in its tick
(QUITTING is terminal after cleanup, and the source names no later frame). The relation admits sequences of the later
steps after it. It also sets no bound on how many sequences a step issues. -/
def tickAdmitted (fired : List (TickStage × Sequence)) : Bool :=
  fired.all (fun x => x.1.issues x.2) && decide ((fired.map (fun x => x.1.rank)).Pairwise (· ≤ ·))

/-- The commands of sequences issued one after another (R120 item 1). -/
def expandAll : List Sequence → Except SequenceError (List Instr)
  | [] => .ok []
  | x :: rest =>
    match x.expand, expandAll rest with
    | .ok commands, .ok more => .ok (commands ++ more)
    | .error e, _ => .error e
    | _, .error e => .error e

end Sys2Proof.Machine
end

