-- ==== Sys2Proof/Machine/Client.lean ====
section
/-! DEFINITION. The inputs of a plain client and sink: the client presents its requests one after another, each until it is
taken, and "the sink takes every byte at once" (95_test_vectors.md section 3). This is one behaviour of the outside world
among all that 60_exceptions.md R150 allows (log 1); the machine does not depend on it. -/

namespace Sys2Proof.Machine

/-- One request: presented in one step, then one step for each byte of its frame, in which the sink takes it. -/
def requestInputs (c : Request) : List PortInputs :=
  PortInputs.present c ::
    (match frameOf (decodeRequest c) with
     | some f => List.replicate f.length PortInputs.take
     | none => [])

/-- The inputs for a list of requests (30_encoding.md R71). -/
def driveRequests (cs : List Request) : List PortInputs :=
  cs.flatMap requestInputs

/-- A state whose outside world issues these requests from here on. -/
def State.withRequests (s : State) (cs : List Request) : State :=
  { s with inputs := driveRequests cs }

end Sys2Proof.Machine
end

