-- ==== Sys2Proof/Safety.lean ====
section
/-! DEFINITION. The terms in which claims speak: runs, the invariants of 10_state.md R34, which step is enabled
(41_checksum_and_framing.md R95), what the stream holds (20_memory.md R50, 70_reset_and_hazards.md R171) and how a run ends
well (60_exceptions.md R151). -/

namespace Sys2Proof.Machine

/-- `k` steps, ended by the first fault or refusal. -/
def run : Nat → State → StepOutcome
  | 0, s => .next s
  | k + 1, s =>
    match step s with
    | .next t => run k t
    | .fault r => .fault r
    | .refused r => .refused r

/-- The power-on state with an outside world that will drive these inputs. -/
def State.resetWith (inputs : List PortInputs) : State := { State.reset with inputs := inputs }

/-- The four lines of R34. -/
structure State.SequencerInv (s : State) : Prop where
  idle_zero : s.phase = .idle → s.pos = 0 ∧ s.crc = 0x00#8
  emit_flen : s.phase = .emit → ∃ n, s.flen = some n ∧ (n = 6 ∨ n = 7 ∨ n = 11) ∧ s.pos ≤ n - 1
  emit_crc_start : s.phase = .emit → s.pos ≤ 2 → s.crc = 0x00#8
  emit_crc : s.phase = .emit → 3 ≤ s.pos → s.crc = crc8 ((s.fb.drop 2).take (s.pos - 2))

/-- R34 with what it needs to say what the latch holds: in `IDLE` the latch has no value (R23, R24); in `EMIT` the state is
not refused and the latch is the frame, less its checksum, of a command in the domain of R100. -/
structure State.Inv (s : State) : Prop where
  sequencer : s.SequencerInv
  idle_no_value : s.phase = .idle → s.flen = none ∧ s.fb = []
  emit_not_refused : s.phase = .emit → s.refused = none
  emit_latch : s.phase = .emit → ∃ i p, payloadOf i = some p ∧
    s.fb = [marker0, marker1] ++ frameBody (cmdByte i) p ∧ s.flen = some (p.length + 6)

/-- The accept step is enabled (R91, R95): no reset, not refused, `IDLE`, a request presented. -/
def State.acceptEnabled (s : State) : Bool :=
  !s.ports.reset && s.refused.isNone && decide (s.phase = .idle) && s.ports.cmd.isSome

/-- The emit step is enabled (R92, R95): `pos < flen - 1`. -/
def State.emitEnabled (s : State) : Bool :=
  !s.ports.reset && s.refused.isNone && decide (s.phase = .emit) && s.ports.outReady &&
    s.flen.any (fun n => decide (s.pos + 1 < n))

/-- The final-byte step is enabled (R93, R95): `pos = flen - 1`. -/
def State.finalEnabled (s : State) : Bool :=
  !s.ports.reset && s.refused.isNone && decide (s.phase = .emit) && s.ports.outReady && s.atLastByte

/-- A command in the domain of R100: it is accepted and has a frame. -/
def hasFrame (i : Instr) : Bool := (frameOf i).isSome

/-- The bytes of a command's frame, none for a refused one. -/
def frameBytes (i : Instr) : List Byte := (frameOf i).getD []

/-- The command the next step accepts, if it accepts one. -/
def State.acceptedNow (s : State) : Option Instr :=
  if s.acceptEnabled then (s.ports.cmd.map decodeRequest).filter hasFrame else none

/-- The commands accepted in the next `k` steps, in the order of their handshakes (R50). -/
def acceptedIn : Nat → State → List Instr
  | 0, _ => []
  | k + 1, s =>
    match step s with
    | .next t => s.acceptedNow.toList ++ acceptedIn k t
    | .fault _ => []
    | .refused _ => []

/-- No reset is asserted in these inputs. -/
def noReset (inputs : List PortInputs) : Bool := inputs.all (fun x => !x.reset)

/-- The number of steps in which the sink takes a byte. -/
def readyCount (inputs : List PortInputs) : Nat := inputs.countP (fun x => x.outReady)

/-- `prefix(frame_of(c))` of R50: the bytes of the frame in flight that are on the stream. -/
def State.inFlight (s : State) : List Byte :=
  match s.phase with
  | .idle => []
  | .emit => s.fb.take s.pos

/-- The command `i` puts exactly the bytes `f` on the stream and changes nothing else (R94, R100): from `IDLE`, `exec` takes
it without emitting a byte; then, whatever the client presents and however long the sink stalls, as soon as the sink has
taken `f.length` bytes without a reset the stream is longer by `f`, and every other element of the state is what it was, but
for the inputs spent. -/
def Delivers (i : Instr) (f : List Byte) : Prop :=
  ∀ s : State, s.Inv → s.phase = .idle → s.refused = none →
    ∃ t, exec i s = .next t ∧ t.stream = s.stream ∧ t.inputs = s.inputs ∧ t.phase = .emit ∧
      ∀ (stalls : List PortInputs) (last : PortInputs) (rest : List PortInputs),
        s.inputs = stalls ++ last :: rest → noReset (stalls ++ [last]) = true → last.outReady = true →
        readyCount (stalls ++ [last]) = f.length →
        ∃ u, run (stalls.length + 1) t = .next u ∧ u = { s with stream := s.stream ++ f, inputs := u.inputs } ∧
          u.inputs = rest

/-- A piece of the stream: the whole frame of a command, or the first `sent` bytes of one, cut by a reset (R171). -/
inductive Segment where
  | whole (i : Instr)
  | cut (i : Instr) (sent : Nat)
  deriving DecidableEq, Repr

/-- The bytes of a segment. -/
def Segment.bytes : Segment → List Byte
  | .whole i => frameBytes i
  | .cut i sent => (frameBytes i).take sent

/-- A segment is of an accepted command, and a cut one has `1 <= pos <= flen - 1` bytes (R171). -/
def Segment.ok : Segment → Bool
  | .whole i => hasFrame i
  | .cut i sent => hasFrame i && decide (1 ≤ sent) && decide (sent + 1 ≤ (frameBytes i).length)

/-- The truncation events that segments which begin at stream offset `start` stand for. -/
def cutEvents : Nat → List Segment → List Truncation
  | _, [] => []
  | start, .whole i :: rest => cutEvents (start + (Segment.whole i).bytes.length) rest
  | start, .cut i sent :: rest =>
    { sent := sent, streamLength := start + (Segment.cut i sent).bytes.length } ::
      cutEvents (start + (Segment.cut i sent).bytes.length) rest

/-- R50 with R171: the stream is whole frames of accepted commands, with a cut frame at each truncation event recorded
and nowhere else, and then the bytes sent so far of the frame in flight. -/
def State.Framed (s : State) : Prop :=
  ∃ segments : List Segment, segments.all Segment.ok = true ∧
    s.stream = segments.flatMap Segment.bytes ++ s.inFlight ∧ s.truncations = cutEvents 0 segments

/-- R151: a run ends well when no frame is in flight, no request is pending and the state is not refused. -/
def State.endsWell (s : State) : Bool :=
  decide (s.phase = .idle) && s.ports.cmd.isNone && s.refused.isNone

end Sys2Proof.Machine
end

