-- ==== Sys2Proof/Certificates/Slice0/Obligations.lean ====
section
/-! DEFINITION. The statements for the provers, in the order of the spec's files. Each docstring names the rules it
formalises. -/

open Sys2Proof Sys2Proof.Machine

/-! ### State, ports and invariants (10_state.md) -/

/-- The power-on state has the reset values of R20, an empty stream (R26) and neither a refused mark nor a truncation
(95_test_vectors.md section 3), whatever the outside world will drive. -/
def Obligations.PowerOnStateHasTheResetValues : Prop :=
  ∀ inputs : List PortInputs,
    State.resetWith inputs =
      { phase := .idle, pos := 0, flen := none, fb := [], crc := 0x00#8, stream := [], refused := none,
        truncations := [], inputs := inputs } ∧
    (State.resetWith inputs).cmdReady = true ∧ (State.resetWith inputs).outValid = false

/-- R21: only the accept step sets EMIT; only the final-byte step and reset set IDLE. -/
def Obligations.PhaseIsSetOnlyByAcceptFinalByteAndReset : Prop :=
  State.reset.phase = .idle ∧
  ∀ s t : State, step s = .next t →
    (s.phase = .idle → t.phase = .emit → s.acceptEnabled = true) ∧
    (s.phase = .emit → t.phase = .idle → s.ports.reset = true ∨ s.finalEnabled = true)

/-- R22: the accept step sets `pos` to 0, an emit step adds 1, the final-byte step and reset set it to 0, any other step
leaves it; and in EMIT `0 <= pos < flen`. -/
def Obligations.PosCountsTheBytesOfTheFrame : Prop :=
  State.reset.pos = 0 ∧
  ∀ s t : State, s.Inv → step s = .next t →
    (s.ports.reset = true → t.pos = 0) ∧
    (s.emitEnabled = true → t.pos = s.pos + 1) ∧
    (s.finalEnabled = true → t.pos = 0) ∧
    (s.acceptEnabled = true → t.phase = .emit → t.pos = 0) ∧
    (s.ports.reset = false → s.emitEnabled = false → s.finalEnabled = false → s.acceptEnabled = false → t.pos = s.pos) ∧
    (t.phase = .emit → ∃ n, t.flen = some n ∧ t.pos < n)

/-- R26: the stream is empty at power-on and append-only: no step removes or rewrites a byte, reset among them, and a step
adds at most the one byte the output port shows. -/
def Obligations.StreamIsAppendOnly : Prop :=
  State.reset.stream = [] ∧
  ∀ s t : State, step s = .next t →
    t.stream = s.stream ∨
      ∃ b, s.outData = some b ∧ s.outValid = true ∧ s.ports.outReady = true ∧ s.ports.reset = false ∧
        t.stream = s.stream ++ [b]

/-- R28, R29: in EMIT the output port shows the very byte that the output handshake hands over, and `out_last` says
whether it is the one after which the block is back in IDLE; in IDLE the port carries no value. -/
def Obligations.OutputPortShowsTheByteHandedOver : Prop :=
  (∀ s : State, s.Inv → s.phase = .emit → s.ports.reset = false → s.ports.outReady = true →
    s.cmdReady = false ∧ s.outValid = true ∧ ∃ b t, s.outData = some b ∧ step s = .next t ∧ t.stream = s.stream ++ [b] ∧
      (s.outLast = some true ↔ t.phase = .idle) ∧ (s.outLast = some false ↔ t.phase = .emit)) ∧
  ∀ s : State, s.phase = .idle →
    s.cmdReady = true ∧ s.outValid = false ∧ s.outData = none ∧ s.outLast = none

/-- The invariant holds at power-on (R34, R23, R24), and the empty stream is framed. -/
def Obligations.ResetMeetsTheInvariant : Prop :=
  ∀ inputs : List PortInputs, (State.resetWith inputs).Inv ∧ (State.resetWith inputs).Framed

/-- Every step, reset among them, keeps the invariant: R34, no value in IDLE (R23, R24), and in EMIT the latch is the frame,
less its checksum, of a command in the domain of R100. -/
def Obligations.EveryStepKeepsTheInvariant : Prop :=
  ∀ s t : State, s.Inv → step s = .next t → t.Inv

/-- R34: its four lines hold in every state reachable from reset, whatever client, sink and reset do. -/
def Obligations.EveryReachableStateMeetsTheSequencerInvariants : Prop :=
  ∀ (inputs : List PortInputs) (k : Nat) (t : State),
    run k (State.resetWith inputs) = .next t → t.SequencerInv

/-! ### Stream order (20_memory.md) -/

/-- R50: from IDLE and without a reset, the stream grows by the frames of the accepted commands in the order of their
handshakes; in EMIT the last of them is there only up to `pos`. -/
def Obligations.StreamIsTheFramesInAcceptanceOrder : Prop :=
  ∀ (s t : State) (k : Nat), s.Inv → s.phase = .idle → noReset (s.inputs.take k) = true → run k s = .next t →
    (t.phase = .idle → t.stream = s.stream ++ (acceptedIn k s).flatMap frameBytes) ∧
    (t.phase = .emit → ∃ cs c, acceptedIn k s = cs ++ [c] ∧
      t.stream = s.stream ++ cs.flatMap frameBytes ++ (frameBytes c).take t.pos)

/-! ### Frames and encodings (30_encoding.md) -/

/-- R60: the layout of every frame, by offset, for every command byte and every payload the length field can count. -/
def Obligations.FrameLayoutByOffset : Prop :=
  ∀ (cmd : Byte) (p : List Byte), p.length ≤ 65535 →
    (frame cmd p).length = p.length + 6 ∧
    (frame cmd p)[0]? = some 0xA5#8 ∧ (frame cmd p)[1]? = some 0x5A#8 ∧ (frame cmd p)[2]? = some cmd ∧
    ((frame cmd p)[3]?).map BitVec.toNat = some (p.length % 256) ∧
    ((frame cmd p)[4]?).map BitVec.toNat = some (p.length / 256) ∧
    (∀ k, k < p.length → (frame cmd p)[5 + k]? = p[k]?) ∧
    (frame cmd p)[5 + p.length]? = some (crc8 (((frame cmd p).drop 2).take (p.length + 3)))

/-- R65: the three frame formats, byte by byte. -/
def Obligations.ThreeFrameFormats : Prop :=
  (∀ index r g b : Nat, index ≤ 65535 →
    frameOf (.setPixel index r g b) =
      some [0xA5#8, 0x5A#8, 0x10#8, 0x05#8, 0x00#8, BitVec.ofNat 8 index, BitVec.ofNat 8 (index / 256),
        mask8 r, mask8 g, mask8 b,
        crc8 [0x10#8, 0x05#8, 0x00#8, BitVec.ofNat 8 index, BitVec.ofNat 8 (index / 256), mask8 r, mask8 g, mask8 b]]) ∧
  (∀ value : Int,
    frameOf (.brightness value) =
      some [0xA5#8, 0x5A#8, 0x13#8, 0x01#8, 0x00#8, clamp8 value, crc8 [0x13#8, 0x01#8, 0x00#8, clamp8 value]]) ∧
  frameOf .showCmd = some [0xA5#8, 0x5A#8, 0x04#8, 0x00#8, 0x00#8, 0xAB#8]

/-- R66: the code selects the command, and every other code is reserved. -/
def Obligations.CodeSelectsTheCommand : Prop :=
  ∀ c : Request,
    (c.code = 0x04#8 → decodeRequest c = .showCmd) ∧
    (c.code = 0x10#8 → decodeRequest c = .setPixel c.index c.r c.g c.b) ∧
    (c.code = 0x13#8 → decodeRequest c = .brightness c.value) ∧
    (c.code ≠ 0x04#8 → c.code ≠ 0x10#8 → c.code ≠ 0x13#8 → decodeRequest c = .reserved c.code)

/-- Decoding inverts encoding, for every command well formed at the port widths and for every admitted width: no bit of an
operand is dropped. The single word is the model's layout of the port's wires (log 4). -/
def Obligations.DecodeInvertsEncode : Prop :=
  ∀ (p : Params) (i : Instr), p.wf = true → i.wf p = true → decodeWord p (encode p i) = .ok i

/-- The codes of the opcode table decode to their rows, and to nothing else; the operands of a SET_PIXEL and a BRIGHTNESS
word are where the layout puts them (log 4). -/
def Obligations.TableWordsDecodeToTheirRows : Prop :=
  decodeTableWord 8 0x04 = some .showCmd ∧
  decodeTableWord 8 0x10 = some (.setPixel 0 0 0 0) ∧
  decodeTableWord 8 0x13 = some (.brightness 0) ∧
  decodeTableWord 8 0x11 = some (.reserved 0x11#8) ∧
  decodeTableWord 64 0x0000_80_00_FF_0003_10 = some (.setPixel 3 255 0 128) ∧
  decodeTableWord 64 0xFFFB_00_00_00_0000_13 = some (.brightness (-5)) ∧
  decodeWord Params.default (2 ^ 64) = .error .wordTooWide

/-- R69: a reader at a frame's start finds its end from bytes 3 and 4, whatever follows, and frames have three lengths. -/
def Obligations.ReaderFindsTheFrameEnd : Prop :=
  ∀ (i : Instr) (f rest : List Byte), frameOf i = some f →
    readFrame (f ++ rest) = some (f, rest) ∧
    f.length = (match i with
      | .setPixel _ _ _ _ => 11
      | .brightness _ => 7
      | .showCmd => 6
      | .reserved _ => 0)

/-- A stream of whole frames splits into exactly these frames (from R69): no two lists of frames share a stream. -/
def Obligations.StreamOfFramesSplitsUniquely : Prop :=
  ∀ (is : List Instr) (fuel : Nat), (∀ i ∈ is, hasFrame i = true) → is.length ≤ fuel →
    readFrames fuel (is.flatMap frameBytes) = is.map frameBytes

/-- R70: the markers are not escaped and no byte is stuffed: a frame is six bytes longer than its payload, the payload and
the checksum stand in it as they are, the pair `A5 5A` can appear inside a frame, and a checksum byte can equal either
marker. -/
def Obligations.MarkersAreNotEscaped : Prop :=
  (∀ (cmd : Byte) (p : List Byte), (frame cmd p).length = p.length + 6 ∧ ((frame cmd p).drop 5).take p.length = p ∧
    (frame cmd p).getLast? = some (crc8 (frameBody cmd p))) ∧
  (∀ r g b : Nat, ∃ f, frameOf (.setPixel 0x5AA5 r g b) = some f ∧ f[5]? = some 0xA5#8 ∧ f[6]? = some 0x5A#8) ∧
  frameOf (.brightness 92) = some [0xA5#8, 0x5A#8, 0x13#8, 0x01#8, 0x00#8, 0x5C#8, 0xA5#8] ∧
  frameOf (.brightness 20) = some [0xA5#8, 0x5A#8, 0x13#8, 0x01#8, 0x00#8, 0x14#8, 0x5A#8]

/-! ### Checksum, packing, masking, clamping (41_checksum_and_framing.md) -/

/-- R82: `crc8` is the fold of `crc8_step` from 0x00; leading zero bytes do not count; its worked values. -/
def Obligations.CrcIsTheFoldOfItsStep : Prop :=
  crc8 [] = 0x00#8 ∧
  (∀ (s : List Byte) (b : Byte), crc8 (s ++ [b]) = crc8Step (crc8 s) b) ∧
  (∀ s : List Byte, crc8 ([0x00#8] ++ s) = crc8 s) ∧
  (∀ n : Nat, crc8 (List.replicate n 0x00#8) = 0x00#8) ∧
  crc8 [0x04#8] = 0x1C#8 ∧ crc8 [0x04#8, 0x00#8] = 0x54#8 ∧ crc8 [0x04#8, 0x00#8, 0x00#8] = 0xAB#8

/-- R84: the loop of R81 equals the spec's table of 256 entries on all 65,536 inputs. -/
def Obligations.CrcStepEqualsTheTable : Prop :=
  crcTable.length = 256 ∧
  ∀ c b : Byte, crcTable[(c ^^^ b).toNat]? = some (crc8Step c b) ∧ crc8Step c b = crc8Step 0x00#8 (c ^^^ b)

/-- R85: equal inputs have equal checksums; the checksum is linear over byte-wise exclusive OR; every change of a single
byte changes it; one more byte is one more step. -/
def Obligations.CrcLaws : Prop :=
  (∀ s t : List Byte, s = t → crc8 s = crc8 t) ∧
  (∀ s t : List Byte, s.length = t.length → crc8 (List.zipWith (· ^^^ ·) s t) = crc8 s ^^^ crc8 t) ∧
  (∀ (s t : List Byte) (x y : Byte), x ≠ y → crc8 (s ++ x :: t) ≠ crc8 (s ++ y :: t)) ∧
  (∀ (s : List Byte) (b : Byte), crc8 (s ++ [b]) = crc8Step (crc8 s) b)

/-- R86: `le16` is the two bytes of a 16-bit value, the low one first. -/
def Obligations.LittleEndianPacking : Prop :=
  (∀ n : Nat, n ≤ 65535 → ∃ lo hi : Byte, le16 n = [lo, hi] ∧ lo.toNat = n % 256 ∧ hi.toNat = n / 256) ∧
  le16 287 = [0x1F#8, 0x01#8] ∧ le16 5 = [0x05#8, 0x00#8]

/-- R87: the channel mask keeps the low 8 bits; it wraps and does not saturate. -/
def Obligations.ChannelMaskWraps : Prop :=
  (∀ v : Nat, (mask8 v).toNat = v % 256) ∧ (∀ v : Nat, v ≤ 255 → (mask8 v).toNat = v) ∧
  mask8 256 = 0x00#8 ∧ mask8 0x1FF = 0xFF#8 ∧ mask8 0x123 = 0x23#8

/-- R88: the brightness clamp saturates, at every port width from 9 bits up. -/
def Obligations.BrightnessClampSaturates : Prop :=
  (∀ v : Int, (v < 0 → clamp8 v = 0x00#8) ∧ (v > 255 → clamp8 v = 0xFF#8) ∧
    (0 ≤ v → v ≤ 255 → ((clamp8 v).toNat : Int) = v)) ∧
  (∀ w : Nat, 9 ≤ w → clamp8 (-(2 ^ (w - 1))) = 0x00#8 ∧ clamp8 (2 ^ (w - 1) - 1) = 0xFF#8) ∧
  clamp8 (-1) = 0x00#8 ∧ clamp8 256 = 0xFF#8

/-- R92: the emit step hands over `fb[pos]`, steps the checksum on covered bytes only, and moves `pos` by one; everything
else of the block stays. -/
def Obligations.EmitStepHandsOverOneLatchedByte : Prop :=
  ∀ (s : State) (n : Nat) (b : Byte), s.phase = .emit → s.refused = none → s.ports.reset = false →
    s.ports.outReady = true → s.flen = some n → s.pos < n - 1 → s.fb[s.pos]? = some b →
    ∃ t, step s = .next t ∧ t = { s with
      stream := s.stream ++ [b]
      crc := if 2 ≤ s.pos then crc8Step s.crc b else s.crc
      pos := s.pos + 1
      inputs := t.inputs }

/-- R93: the final-byte step hands over the checksum with `out_last = 1`, clears `crc` and `pos` and goes to IDLE, where the
block can accept the next request. -/
def Obligations.FinalByteStepHandsOverTheChecksum : Prop :=
  ∀ s : State, s.phase = .emit → s.refused = none → s.ports.reset = false →
    s.ports.outReady = true → s.flen = some (s.pos + 1) →
    ∃ t, step s = .next t ∧ s.outLast = some true ∧ t.stream = s.stream ++ [s.crc] ∧ t.crc = 0x00#8 ∧ t.pos = 0 ∧
      t.phase = .idle ∧ t.cmdReady = true ∧ t.refused = none ∧ t.truncations = s.truncations

/-- R94: once accepted, every command puts exactly its frame on the stream, in order, whatever the client presents and
however long the sink stalls, if no reset comes; and it changes nothing else. -/
def Obligations.EveryAcceptedCommandDeliversItsFrame : Prop :=
  ∀ (i : Instr) (f : List Byte), frameOf i = some f → Delivers i f

/-- R95: at most one of the accept, emit and final-byte steps is enabled; with none enabled and no reset the block does
nothing (IDLE without a request, EMIT with a sink that does not take). A refused state has no step; that it is answered by
the refusal is the model's reading of R95 case 3 (log 7). -/
def Obligations.AtMostOneStepIsEnabled : Prop :=
  ∀ s : State,
    ¬ (s.acceptEnabled = true ∧ s.emitEnabled = true) ∧
    ¬ (s.acceptEnabled = true ∧ s.finalEnabled = true) ∧
    ¬ (s.emitEnabled = true ∧ s.finalEnabled = true) ∧
    (s.ports.reset = false → s.refused = none → s.phase = .idle → s.ports.cmd = none →
      ∃ t, step s = .next t ∧ t = { s with inputs := t.inputs }) ∧
    (s.ports.reset = false → s.refused = none → s.phase = .emit → s.ports.outReady = false →
      ∃ t, step s = .next t ∧ t = { s with inputs := t.inputs }) ∧
    (∀ reason, s.ports.reset = false → s.refused = some reason → step s = .refused (.marked reason))

/-! ### The commands (42_commands.md) -/

/-- SHOW completes: from IDLE it latches the bytes of `F_SHOW` (R65) but the checksum, as R91 says, emits no byte, and
changes nothing else. -/
def Obligations.ShowIsAcceptedAndLatched : Prop :=
  ∀ s : State, s.phase = .idle → s.refused = none →
    exec .showCmd s = .next { s with
      phase := .emit, pos := 0, flen := some 6, crc := 0x00#8,
      fb := [0xA5#8, 0x5A#8, 0x04#8, 0x00#8, 0x00#8] }

/-- SET_PIXEL completes: from IDLE, with a 16-bit index and any channel values, it latches the bytes of `F_SET_PIXEL` (R65)
but the checksum, as R91 says, emits no byte, and changes nothing else. -/
def Obligations.SetPixelIsAcceptedAndLatched : Prop :=
  ∀ (s : State) (index r g b : Nat), s.phase = .idle → s.refused = none → index ≤ 65535 →
    exec (.setPixel index r g b) s = .next { s with
      phase := .emit, pos := 0, flen := some 11, crc := 0x00#8,
      fb := [0xA5#8, 0x5A#8, 0x10#8, 0x05#8, 0x00#8, BitVec.ofNat 8 (index % 256), BitVec.ofNat 8 (index / 256),
        BitVec.ofNat 8 (r % 256), BitVec.ofNat 8 (g % 256), BitVec.ofNat 8 (b % 256)] }

/-- BRIGHTNESS completes: from IDLE, with any value, it latches the bytes of `F_BRIGHTNESS` (R65) but the checksum, as R91
says, emits no byte, and changes nothing else. -/
def Obligations.BrightnessIsAcceptedAndLatched : Prop :=
  ∀ (s : State) (value : Int), s.phase = .idle → s.refused = none →
    exec (.brightness value) s = .next { s with
      phase := .emit, pos := 0, flen := some 7, crc := 0x00#8,
      fb := [0xA5#8, 0x5A#8, 0x13#8, 0x01#8, 0x00#8,
        if value < 0 then 0x00#8 else if value > 255 then 0xFF#8 else BitVec.ofNat 8 value.toNat] }

/-- R104: a request with one of the 253 reserved codes is refused by the accept step: the state is marked with
`ReservedCode(code)`, no byte is emitted and nothing else changes. -/
def Obligations.ReservedCodeMarksTheState : Prop :=
  (∀ (s : State) (c : Request), s.phase = .idle → s.refused = none →
    c.code ≠ 0x04#8 → c.code ≠ 0x10#8 → c.code ≠ 0x13#8 →
    decodeRequest c = .reserved c.code ∧
    exec (.reserved c.code) s = .next { s with refused := some (.reservedCode c.code) }) ∧
  ((List.range 256).filter (fun n => isReservedCode (BitVec.ofNat 8 n))).length = 253

/-- R91, R141: a SET_PIXEL index above 65535 is refused: the state is marked with `IndexOutOfRange(index)`, no byte is
emitted and nothing else changes. -/
def Obligations.IndexAboveSixteenBitsMarksTheState : Prop :=
  ∀ (s : State) (index r g b : Nat), s.phase = .idle → s.refused = none → 65535 < index →
    exec (.setPixel index r g b) s = .next { s with refused := some (.indexOutOfRange index) }

/-- R101: SET_PIXEL puts its eleven bytes on the stream; refused above 65535; the source's worked example. -/
def Obligations.SetPixelDeliversElevenBytes : Prop :=
  (∀ index r g b : Nat, index ≤ 65535 →
    Delivers (.setPixel index r g b)
      ([0xA5#8, 0x5A#8, 0x10#8, 0x05#8, 0x00#8] ++ (le16 index ++ [mask8 r, mask8 g, mask8 b]) ++
        [crc8 ([0x10#8, 0x05#8, 0x00#8] ++ (le16 index ++ [mask8 r, mask8 g, mask8 b]))])) ∧
  (∀ (s : State) (index r g b : Nat), s.phase = .idle → s.refused = none → 65535 < index →
    exec (.setPixel index r g b) s = .next { s with refused := some (.indexOutOfRange index) }) ∧
  Delivers (.setPixel 3 255 0 128)
    [0xA5#8, 0x5A#8, 0x10#8, 0x05#8, 0x00#8, 0x03#8, 0x00#8, 0xFF#8, 0x00#8, 0x80#8, 0x99#8]

/-- R102: BRIGHTNESS puts its seven bytes on the stream; the corner cases below 0 and above 255 and the example. -/
def Obligations.BrightnessDeliversSevenBytes : Prop :=
  (∀ value : Int,
    Delivers (.brightness value)
      ([0xA5#8, 0x5A#8, 0x13#8, 0x01#8, 0x00#8] ++ [clamp8 value] ++
        [crc8 ([0x13#8, 0x01#8, 0x00#8] ++ [clamp8 value])])) ∧
  (∀ value : Int, value < 0 →
    Delivers (.brightness value) [0xA5#8, 0x5A#8, 0x13#8, 0x01#8, 0x00#8, 0x00#8, 0x36#8]) ∧
  (∀ value : Int, value > 255 →
    Delivers (.brightness value) [0xA5#8, 0x5A#8, 0x13#8, 0x01#8, 0x00#8, 0xFF#8, 0xC5#8]) ∧
  Delivers (.brightness 128) [0xA5#8, 0x5A#8, 0x13#8, 0x01#8, 0x00#8, 0x80#8, 0xBF#8]

/-- R103: SHOW puts the same six bytes on the stream every time. -/
def Obligations.ShowDeliversSixBytes : Prop :=
  Delivers .showCmd [0xA5#8, 0x5A#8, 0x04#8, 0x00#8, 0x00#8, 0xAB#8]

/-- R105: a field its command does not read has no effect: two requests that agree on the code and on the fields it reads
(R67) lead to the same step. -/
def Obligations.DontCareFieldsHaveNoEffect : Prop :=
  (∀ (s : State) (c d : Request) (ready : Bool) (rest : List PortInputs), c.code = d.code →
    (c.code = 0x10#8 → c.index = d.index ∧ c.r = d.r ∧ c.g = d.g ∧ c.b = d.b) →
    (c.code = 0x13#8 → c.value = d.value) →
    decodeRequest c = decodeRequest d ∧
    step { s with inputs := { reset := false, cmd := some c, outReady := ready } :: rest } =
      step { s with inputs := { reset := false, cmd := some d, outReady := ready } :: rest }) ∧
  frameOf (decodeRequest ⟨0x04#8, 7, 1, 2, 3, 99⟩) = frameOf (decodeRequest ⟨0x04#8, 0, 0, 0, 0, 0⟩)

/-- A step runs the decoded command: in IDLE, not refused and with no reset asserted, presenting the request of a word that
decodes to `i` is `exec i`, the inputs of the step being spent. -/
def Obligations.StepRunsThePresentedCommand : Prop :=
  ∀ (s : State) (p : Params) (w : Nat) (i : Instr) (ready : Bool) (rest : List PortInputs),
    s.phase = .idle → s.refused = none → decodeWord p w = .ok i →
    s.inputs = { reset := false, cmd := some (requestOfWord p w), outReady := ready } :: rest →
    step s = exec i { s with inputs := rest }

/-! ### Sequences (43_frame_sequences.md) -/

/-- R120 item 3, R121, R122: for every pixel count and every order that sends each index exactly once, a sweep (BLACKOUT in
black, FILL_ALL in the pen color) is admitted and sends its SET_PIXEL frames in that very order, each index once, and then
exactly one SHOW, `11n + 6` bytes in all. That the order is an argument of the sequence is the model's form of what R120
leaves open (log 12). -/
def Obligations.SweepSendsEachPixelOnceThenShow : Prop :=
  ∀ (n r g b : Nat) (order : List Nat), 1 ≤ n → n ≤ 65536 → order.Perm (List.range n) →
    ∃ sets, Sequence.expand (.fillAll n order r g b) = .ok (sets ++ [Instr.showCmd]) ∧
      sets = order.map (fun index => Instr.setPixel index r g b) ∧
      sets.Perm ((List.range n).map (fun index => Instr.setPixel index r g b)) ∧
      ((sets ++ [Instr.showCmd]).flatMap frameBytes).length = 11 * n + 6 ∧
      Sequence.expand (.blackout n order) = Sequence.expand (.fillAll n order 0 0 0)

/-- R123, R124: BRIGHTNESS_SHOW is 7 + 6 = 13 bytes, the brightness clamped, then SHOW; SHOW_NOW is the six bytes of SHOW. -/
def Obligations.BrightnessShowAndShowNowStreams : Prop :=
  (∀ v : Int, ∃ cs, Sequence.expand (.brightnessShow v) = .ok cs ∧
    cs.flatMap frameBytes =
      [0xA5#8, 0x5A#8, 0x13#8, 0x01#8, 0x00#8, clamp8 v, crc8 [0x13#8, 0x01#8, 0x00#8, clamp8 v],
       0xA5#8, 0x5A#8, 0x04#8, 0x00#8, 0x00#8, 0xAB#8]) ∧
  ∃ cs, Sequence.expand .showNow = .ok cs ∧
    cs.flatMap frameBytes = [0xA5#8, 0x5A#8, 0x04#8, 0x00#8, 0x00#8, 0xAB#8]

/-- R125: a REDRAW of changed pixels, each index at most once, is a SET_PIXEL for each and one trailing SHOW, and of no pixel
is nothing at all. The frames stand in the order of the list, which is the order the client sends them in: R125 leaves it open
and the model takes it as an argument (log 12). -/
def Obligations.RedrawSendsChangedPixelsThenShow : Prop :=
  (∀ list : List PixelColor, (list.map PixelColor.index).Nodup → (∀ x ∈ list, x.index ≤ 65535) → list ≠ [] →
    ∃ sets, Sequence.expand (.redraw list) = .ok (sets ++ [Instr.showCmd]) ∧
      sets = list.map (fun x => Instr.setPixel x.index x.r x.g x.b) ∧
      ((sets ++ [Instr.showCmd]).flatMap frameBytes).length = 11 * list.length + 6) ∧
  Sequence.expand (.redraw []) = .ok []

/-- R126: the sequences of a tick are admitted exactly where they are first BLACKOUTs of the quit check, then one-shot
actions (FILL_ALL, BLACKOUT for clear-all, SHOW_NOW), then BRIGHTNESS_SHOWs of held keys, then REDRAWs, any of them absent;
and the commands of sequences issued one after another are those of the first and then those of the second. That a tick is
this relation, how many sequences a step issues and that later steps may issue some after a quit BLACKOUT are the model's
(log 19). -/
def Obligations.TickSequencesFollowTheStepOrder : Prop :=
  (∀ fired : List (TickStage × Sequence),
    tickAdmitted fired = true ↔
      ∃ quits shots held redraws, fired = quits ++ shots ++ held ++ redraws ∧
        (∀ x ∈ quits, ∃ n order, x = (TickStage.quitCheck, Sequence.blackout n order)) ∧
        (∀ x ∈ shots,
          (∃ n order r g b, x = (TickStage.oneShot, Sequence.fillAll n order r g b)) ∨
          (∃ n order, x = (TickStage.oneShot, Sequence.blackout n order)) ∨
          x = (TickStage.oneShot, Sequence.showNow)) ∧
        (∀ x ∈ held, ∃ v, x = (TickStage.heldBrightness, Sequence.brightnessShow v)) ∧
        (∀ x ∈ redraws, ∃ list, x = (TickStage.redraw, Sequence.redraw list))) ∧
  ∀ (first second : List Sequence) (cs ds : List Instr), expandAll first = .ok cs → expandAll second = .ok ds →
    expandAll (first ++ second) = .ok (cs ++ ds)

/-- A client that presents commands of R100's domain one after another to a sink that takes every byte at once: the stream
grows by their frames, whole and in order, and the block is back where it was (R100, R120 item 1). The inputs are one
behaviour of the outside world, `driveRequests` (log 1). -/
def Obligations.IssuedCommandsReachTheStreamInOrder : Prop :=
  ∀ (s : State) (cs : List Request), s.Inv → s.phase = .idle → s.refused = none →
    (∀ c ∈ cs, hasFrame (decodeRequest c) = true) →
    run (driveRequests cs).length (s.withRequests cs) =
      .next { s with stream := s.stream ++ cs.flatMap (fun c => frameBytes (decodeRequest c)), inputs := [] }

/-! ### Refusals, stuck sink, end of a run (60_exceptions.md) -/

/-- R140: the block raises no exception: no step of a state that meets the invariant is a fault, whatever is driven. -/
def Obligations.NoStepFaults : Prop :=
  ∀ (s : State) (r : Fault), s.Inv → step s ≠ .fault r

/-- R141: a state becomes marked only by accepting a request of the closed list, with that reason; the mark is never cleared,
not even by reset. That a marked state without reset is answered by the refusal is the model's reading of R95 case 3
(log 7). -/
def Obligations.RefusedMarkIsNeverCleared : Prop :=
  (∀ (s t : State) (reason : RefuseReason), step s = .next t → s.refused = some reason → t.refused = some reason) ∧
  (∀ (s : State) (reason : RefuseReason), s.ports.reset = false → s.refused = some reason →
    step s = .refused (.marked reason)) ∧
  ∀ (s t : State) (reason : RefuseReason), step s = .next t → s.refused = none → t.refused = some reason →
    s.acceptEnabled = true ∧ ∃ c, s.ports.cmd = some c ∧
      ((reason = .reservedCode c.code ∧ c.code ≠ 0x04#8 ∧ c.code ≠ 0x10#8 ∧ c.code ≠ 0x13#8) ∨
       (reason = .indexOutOfRange c.index ∧ c.code = 0x10#8 ∧ 65535 < c.index))

/-- R142: while the sink takes no byte the block stays in EMIT, for any number of steps: no timeout, no byte, no request
taken, nothing changed but the inputs spent. -/
def Obligations.SinkThatNeverTakesLeavesTheBlockStuck : Prop :=
  ∀ (s : State) (k : Nat), s.phase = .emit → s.refused = none → k ≤ s.inputs.length →
    noReset (s.inputs.take k) = true → readyCount (s.inputs.take k) = 0 →
    ∃ t, run k s = .next t ∧ t = { s with inputs := t.inputs } ∧ t.phase = .emit ∧ t.cmdReady = false

/-- R151: where a run from power-on ends well, the stream is whole frames of accepted commands between the truncations that
resets caused; without a truncation it is a whole number of frames. That the truncation record holds `pos` and the stream's
length at each reset is the model's choice (log 9). -/
def Obligations.RunThatEndsWellHoldsWholeFrames : Prop :=
  ∀ (inputs : List PortInputs) (k : Nat) (t : State),
    run k (State.resetWith inputs) = .next t → t.endsWell = true →
    (∃ segments : List Segment, segments.all Segment.ok = true ∧ t.stream = segments.flatMap Segment.bytes ∧
      t.truncations = cutEvents 0 segments) ∧
    (t.truncations = [] → ∃ cs : List Instr, cs.all hasFrame = true ∧ t.stream = cs.flatMap frameBytes)

/-! ### Reset and hazards (70_reset_and_hazards.md) -/

/-- R170, R172: the reset event, whatever the phase and whatever else is driven: the reset values, `cmd_ready = 1` and
`out_valid = 0` after it; the stream and the refused mark stay, and a request presented with it is not accepted. -/
def Obligations.ResetEventLeavesTheResetValues : Prop :=
  ∀ s : State, s.ports.reset = true →
    ∃ t, step s = .next t ∧ t.phase = .idle ∧ t.pos = 0 ∧ t.crc = 0x00#8 ∧ t.flen = none ∧ t.fb = [] ∧
      t.cmdReady = true ∧ t.outValid = false ∧ t.stream = s.stream ∧ t.refused = s.refused

/-- R171: a reset in EMIT cuts the frame in flight, whose latch and length the state holds: the `pos` bytes of it already
emitted stay at the end of the stream, the rest is gone with the latch, the event is recorded exactly when `pos > 0`, and
the next accepted command latches a fresh frame from offset 0, right after what is on the stream. What the record holds is
the model's choice (log 9). -/
def Obligations.ResetInMidFrameTruncatesAndIsRecorded : Prop :=
  ∀ s : State, s.Inv → s.Framed → s.phase = .emit → s.ports.reset = true →
    ∃ t i f before, frameOf i = some f ∧ s.fb = f.take (f.length - 1) ∧ s.flen = some f.length ∧
      s.pos ≤ f.length - 1 ∧ s.inFlight = f.take s.pos ∧ before ++ s.inFlight = s.stream ∧
      step s = .next t ∧ t.stream = s.stream ∧ t.phase = .idle ∧ t.pos = 0 ∧ t.flen = none ∧ t.fb = [] ∧
      t.truncations =
        s.truncations ++ (if 0 < s.pos then [{ sent := s.pos, streamLength := s.stream.length }] else []) ∧
      ∀ (j : Instr) (g : List Byte), frameOf j = some g →
        ∃ u, exec j t = .next u ∧ u.stream = s.stream ∧ u.phase = .emit ∧ u.pos = 0 ∧ u.flen = some g.length ∧
          u.fb = g.take (g.length - 1)

/-- Every step keeps the framing of the stream: whole frames of accepted commands, a cut frame for each recorded truncation
and nowhere else, then the part of the frame in flight (R50, R171). What the truncation record holds is the model's choice
(log 9). -/
def Obligations.EveryStepKeepsTheStreamFramed : Prop :=
  ∀ s t : State, s.Inv → s.Framed → step s = .next t → t.Framed

/-- R145: reset wins over a handshake driven with it: the step is the same as with reset alone. -/
def Obligations.ResetWinsOverAHandshake : Prop :=
  ∀ (s : State) (cmd : Option Request) (ready : Bool) (rest : List PortInputs),
    step { s with inputs := { reset := true, cmd := cmd, outReady := ready } :: rest } =
      step { s with inputs := PortInputs.assertReset :: rest }

/-- R174, R175: while a frame is in flight a request is not taken: what the command port carries makes no difference to the
step. That `exec`, which no step calls in EMIT, answers the same state there is the model's choice (log 8). -/
def Obligations.RequestInMidFrameIsNotTaken : Prop :=
  (∀ (s : State) (i : Instr), s.phase = .emit → s.refused = none → exec i s = .next s) ∧
  ∀ (s : State) (x : PortInputs) (cmd : Option Request) (rest : List PortInputs), s.phase = .emit →
    step { s with inputs := x :: rest } = step { s with inputs := { x with cmd := cmd } :: rest }
end

