-- ==== Sys2Proof/Laws/Crc.lean ====
section
/-! SUPPORT. The laws of the checksum that other proofs cite (41_checksum_and_framing.md R81, R82). -/

namespace Sys2Proof.Machine

@[simp] theorem crc8_nil : crc8 [] = 0x00#8 := rfl

theorem crc8_append_byte (s : List Byte) (b : Byte) : crc8 (s ++ [b]) = crc8Step (crc8 s) b := by
  simp [crc8]

/-- The register after one more byte of a list, in the form the emit step has. -/
theorem crc8_take_succ (s : List Byte) (k : Nat) (b : Byte) (h : s[k]? = some b) :
    crc8 (s.take (k + 1)) = crc8Step (crc8 (s.take k)) b := by
  rw [List.take_add_one, h, Option.toList_some, crc8_append_byte]

/-- The loop turn as a sum without a test of the bit's value: shift, and the polynomial where bit 7 was set. -/
theorem crcShift_xor (a b : Byte) : crcShift (a ^^^ b) = crcShift a ^^^ crcShift b := by
  unfold crcShift
  rw [BitVec.msb_xor, BitVec.shiftLeft_xor_distrib]
  generalize a <<< 1 = x, b <<< 1 = y, crcPoly = z
  cases a.msb <;> cases b.msb
  · rfl
  · simp only [Bool.false_xor, if_true, Bool.false_eq_true, if_false]; ac_rfl
  · simp only [Bool.xor_false, if_true, Bool.false_eq_true, if_false]; ac_rfl
  · simp only [Bool.xor_self, if_true, Bool.false_eq_true, if_false]
    calc x ^^^ y = (x ^^^ y) ^^^ (z ^^^ z) := by rw [BitVec.xor_self, BitVec.xor_zero]
      _ = x ^^^ z ^^^ (y ^^^ z) := by ac_rfl

/-- A loop turn loses nothing: it is injective. -/
theorem crcShift_injective : ∀ a b : Byte, crcShift a = crcShift b → a = b := by
  have zero : ∀ a : Byte, crcShift a = 0x00#8 → a = 0x00#8 := by decide
  intro a b h
  have hx : crcShift (a ^^^ b) = 0x00#8 := by rw [crcShift_xor, h, BitVec.xor_self]
  exact BitVec.xor_eq_zero_iff.mp (zero _ hx)

/-- Turns of the loop distribute over exclusive OR. -/
theorem crcShift_repeat_xor (n : Nat) (a b : Byte) :
    Nat.repeat crcShift n (a ^^^ b) = Nat.repeat crcShift n a ^^^ Nat.repeat crcShift n b := by
  induction n with
  | zero => rfl
  | succ n ih => simp only [Nat.repeat, ih, crcShift_xor]

/-- Turns of the loop are injective. -/
theorem crcShift_repeat_injective (n : Nat) (a b : Byte)
    (h : Nat.repeat crcShift n a = Nat.repeat crcShift n b) : a = b := by
  induction n with
  | zero => exact h
  | succ n ih => exact ih (crcShift_injective _ _ h)

/-- The step is injective in the register, and so is its effect in the byte. -/
theorem crc8Step_injective (c d x y : Byte) (h : crc8Step c x = crc8Step d y) : c ^^^ x = d ^^^ y :=
  crcShift_repeat_injective 8 _ _ h

end Sys2Proof.Machine
end

