-- ==== Sys2Proof/Laws/Operands.lean ====
section
/-! SUPPORT. Lengths of frames and payloads (30_encoding.md R60, R63, R69). -/

namespace Sys2Proof.Machine

@[simp] theorem le16_length (n : Nat) : (le16 n).length = 2 := rfl

@[simp] theorem frameBody_length (cmd : Byte) (p : List Byte) : (frameBody cmd p).length = p.length + 3 := by
  simp [frameBody]; omega

@[simp] theorem frame_length (cmd : Byte) (p : List Byte) : (frame cmd p).length = p.length + 6 := by
  simp [frame]

/-- A payload has 0, 1 or 5 bytes (R63). -/
theorem payloadOf_length {i : Instr} {p : List Byte} (h : payloadOf i = some p) :
    p.length = 0 ∨ p.length = 1 ∨ p.length = 5 := by
  cases i with
  | showCmd => cases h; exact .inl rfl
  | setPixel index r g b =>
    simp only [payloadOf] at h
    split at h
    · cases h; exact .inr (.inr rfl)
    · cases h
  | brightness value => cases h; exact .inr (.inl rfl)
  | reserved code => cases h

/-- A command has a frame exactly when it has a payload, and the frame is R90's. -/
theorem frameOf_eq_some {i : Instr} {f : List Byte} (h : frameOf i = some f) :
    ∃ p, payloadOf i = some p ∧ f = frame (cmdByte i) p := by
  obtain ⟨p, hp, hf⟩ := Option.map_eq_some_iff.mp h
  exact ⟨p, hp, hf.symm⟩

end Sys2Proof.Machine
end

