-- ==== Sys2Proof/Laws/State.lean ====
section
/-! SUPPORT. One lemma per field of State per update: what each operation leaves in it. -/

namespace Sys2Proof.Machine

variable (s : State)

@[simp] theorem State.advance_phase : (s.advance).phase = s.phase := rfl
@[simp] theorem State.advance_pos : (s.advance).pos = s.pos := rfl
@[simp] theorem State.advance_flen : (s.advance).flen = s.flen := rfl
@[simp] theorem State.advance_fb : (s.advance).fb = s.fb := rfl
@[simp] theorem State.advance_crc : (s.advance).crc = s.crc := rfl
@[simp] theorem State.advance_stream : (s.advance).stream = s.stream := rfl
@[simp] theorem State.advance_refused : (s.advance).refused = s.refused := rfl
@[simp] theorem State.advance_truncations : (s.advance).truncations = s.truncations := rfl
@[simp] theorem State.advance_inputs : (s.advance).inputs = s.inputs.tail := rfl

@[simp] theorem State.emit_phase (b : Byte) : (s.emit b).phase = s.phase := rfl
@[simp] theorem State.emit_pos (b : Byte) : (s.emit b).pos = s.pos := rfl
@[simp] theorem State.emit_flen (b : Byte) : (s.emit b).flen = s.flen := rfl
@[simp] theorem State.emit_fb (b : Byte) : (s.emit b).fb = s.fb := rfl
@[simp] theorem State.emit_crc (b : Byte) : (s.emit b).crc = s.crc := rfl
@[simp] theorem State.emit_stream (b : Byte) : (s.emit b).stream = s.stream ++ [b] := rfl
@[simp] theorem State.emit_refused (b : Byte) : (s.emit b).refused = s.refused := rfl
@[simp] theorem State.emit_truncations (b : Byte) : (s.emit b).truncations = s.truncations := rfl
@[simp] theorem State.emit_inputs (b : Byte) : (s.emit b).inputs = s.inputs := rfl

@[simp] theorem State.refuse_phase (reason : RefuseReason) : (s.refuse reason).phase = s.phase := rfl
@[simp] theorem State.refuse_pos (reason : RefuseReason) : (s.refuse reason).pos = s.pos := rfl
@[simp] theorem State.refuse_flen (reason : RefuseReason) : (s.refuse reason).flen = s.flen := rfl
@[simp] theorem State.refuse_fb (reason : RefuseReason) : (s.refuse reason).fb = s.fb := rfl
@[simp] theorem State.refuse_crc (reason : RefuseReason) : (s.refuse reason).crc = s.crc := rfl
@[simp] theorem State.refuse_stream (reason : RefuseReason) : (s.refuse reason).stream = s.stream := rfl
@[simp] theorem State.refuse_refused (reason : RefuseReason) : (s.refuse reason).refused = some reason := rfl
@[simp] theorem State.refuse_truncations (reason : RefuseReason) : (s.refuse reason).truncations = s.truncations := rfl
@[simp] theorem State.refuse_inputs (reason : RefuseReason) : (s.refuse reason).inputs = s.inputs := rfl

@[simp] theorem State.accept_phase (cmd : Byte) (p : List Byte) : (s.accept cmd p).phase = .emit := rfl
@[simp] theorem State.accept_pos (cmd : Byte) (p : List Byte) : (s.accept cmd p).pos = 0 := rfl
@[simp] theorem State.accept_flen (cmd : Byte) (p : List Byte) : (s.accept cmd p).flen = some (p.length + 6) := rfl
@[simp] theorem State.accept_fb (cmd : Byte) (p : List Byte) : (s.accept cmd p).fb =
    [marker0, marker1] ++ frameBody cmd p := rfl
@[simp] theorem State.accept_crc (cmd : Byte) (p : List Byte) : (s.accept cmd p).crc = crcInit := rfl
@[simp] theorem State.accept_stream (cmd : Byte) (p : List Byte) : (s.accept cmd p).stream = s.stream := rfl
@[simp] theorem State.accept_refused (cmd : Byte) (p : List Byte) : (s.accept cmd p).refused = s.refused := rfl
@[simp] theorem State.accept_truncations (cmd : Byte) (p : List Byte) : (s.accept cmd p).truncations =
    s.truncations := rfl
@[simp] theorem State.accept_inputs (cmd : Byte) (p : List Byte) : (s.accept cmd p).inputs = s.inputs := rfl

@[simp] theorem State.emitByte_phase (b : Byte) : (s.emitByte b).phase = s.phase := rfl
@[simp] theorem State.emitByte_pos (b : Byte) : (s.emitByte b).pos = s.pos + 1 := rfl
@[simp] theorem State.emitByte_flen (b : Byte) : (s.emitByte b).flen = s.flen := rfl
@[simp] theorem State.emitByte_fb (b : Byte) : (s.emitByte b).fb = s.fb := rfl
@[simp] theorem State.emitByte_crc (b : Byte) : (s.emitByte b).crc =
    crcAfter s.pos s.crc b := rfl
@[simp] theorem State.emitByte_stream (b : Byte) : (s.emitByte b).stream = s.stream ++ [b] := rfl
@[simp] theorem State.emitByte_refused (b : Byte) : (s.emitByte b).refused = s.refused := rfl
@[simp] theorem State.emitByte_truncations (b : Byte) : (s.emitByte b).truncations = s.truncations := rfl
@[simp] theorem State.emitByte_inputs (b : Byte) : (s.emitByte b).inputs = s.inputs := rfl

@[simp] theorem State.finalByte_phase : (s.finalByte).phase = .idle := rfl
@[simp] theorem State.finalByte_pos : (s.finalByte).pos = 0 := rfl
@[simp] theorem State.finalByte_flen : (s.finalByte).flen = none := rfl
@[simp] theorem State.finalByte_fb : (s.finalByte).fb = [] := rfl
@[simp] theorem State.finalByte_crc : (s.finalByte).crc = 0x00#8 := rfl
@[simp] theorem State.finalByte_stream : (s.finalByte).stream = s.stream ++ [s.crc] := rfl
@[simp] theorem State.finalByte_refused : (s.finalByte).refused = s.refused := rfl
@[simp] theorem State.finalByte_truncations : (s.finalByte).truncations = s.truncations := rfl
@[simp] theorem State.finalByte_inputs : (s.finalByte).inputs = s.inputs := rfl

@[simp] theorem State.resetBlock_phase : (s.resetBlock).phase = .idle := rfl
@[simp] theorem State.resetBlock_pos : (s.resetBlock).pos = 0 := rfl
@[simp] theorem State.resetBlock_flen : (s.resetBlock).flen = none := rfl
@[simp] theorem State.resetBlock_fb : (s.resetBlock).fb = [] := rfl
@[simp] theorem State.resetBlock_crc : (s.resetBlock).crc = 0x00#8 := rfl
@[simp] theorem State.resetBlock_stream : (s.resetBlock).stream = s.stream := rfl
@[simp] theorem State.resetBlock_refused : (s.resetBlock).refused = s.refused := rfl
@[simp] theorem State.resetBlock_truncations : (s.resetBlock).truncations =
    s.truncations ++ truncationAt s.pos s.stream.length := rfl
@[simp] theorem State.resetBlock_inputs : (s.resetBlock).inputs = s.inputs := rfl

end Sys2Proof.Machine
end

