-- ==== Sys2Proof/Laws/Ops.lean ====
section
/-! SUPPORT. What each shared operation can do, said once; later proofs cite these and do not unfold the operations. -/

namespace Sys2Proof.Machine

variable {s t : State}

/-- The command handshake in `IDLE` has the effect of the request. -/
theorem commandHandshake_idle (effect : State → State) (hp : s.phase = .idle) (hr : s.refused = none) :
    commandHandshake effect s = .next (effect s) := by
  simp [commandHandshake, hp, hr]

/-- While a frame is in flight the request is not taken (R174). -/
theorem commandHandshake_busy (effect : State → State) (hp : s.phase = .emit) (hr : s.refused = none) :
    commandHandshake effect s = .next s := by
  simp [commandHandshake, hp, hr]

/-- A marked state refuses (R141). -/
theorem commandHandshake_marked (effect : State → State) {reason : RefuseReason} (hr : s.refused = some reason) :
    commandHandshake effect s = .refused (.marked reason) := by
  simp [commandHandshake, hr]

/-- `exec` of a command in the domain of R100, from `IDLE`: the writes of R91 for its byte and payload. -/
theorem exec_of_payload {i : Instr} {p : List Byte} (hi : payloadOf i = some p) (hp : s.phase = .idle)
    (hr : s.refused = none) : exec i s = .next (s.accept (cmdByte i) p) := by
  cases i with
  | showCmd => cases hi; exact commandHandshake_idle _ hp hr
  | setPixel index r g b =>
    simp only [payloadOf] at hi
    split at hi
    · cases hi
      simp only [exec, execSetPixel, commandHandshake_idle _ hp hr, cmdByte]
      rw [if_pos ‹_›]
    · cases hi
  | brightness value => cases hi; exact commandHandshake_idle _ hp hr
  | reserved code => cases hi

/-- `exec` of a command outside the domain of R100, from `IDLE`: the state is marked, with the reason R141 gives. -/
theorem exec_of_no_payload {i : Instr} (hi : payloadOf i = none) (hp : s.phase = .idle) (hr : s.refused = none) :
    ∃ reason, exec i s = .next (s.refuse reason) ∧
      (i = .reserved (cmdByte i) ∧ reason = .reservedCode (cmdByte i) ∨
        ∃ index r g b, i = .setPixel index r g b ∧ maxIndex < index ∧ reason = .indexOutOfRange index) := by
  cases i with
  | showCmd => cases hi
  | setPixel index r g b =>
    have h : ¬ index ≤ maxIndex := fun h => by simp [payloadOf, h] at hi
    refine ⟨.indexOutOfRange index, ?_, .inr ⟨index, r, g, b, rfl, Nat.lt_of_not_le h, rfl⟩⟩
    simp only [exec, execSetPixel, commandHandshake_idle _ hp hr]
    rw [if_neg h]
  | brightness value => cases hi
  | reserved code => exact ⟨_, commandHandshake_idle _ hp hr, .inl ⟨rfl, rfl⟩⟩

/-- `exec` while a frame is in flight changes nothing (R174). -/
theorem exec_busy (i : Instr) (hp : s.phase = .emit) (hr : s.refused = none) : exec i s = .next s := by
  cases i <;> exact commandHandshake_busy _ hp hr

/-- `exec` of a marked state refuses. -/
theorem exec_marked (i : Instr) {reason : RefuseReason} (hr : s.refused = some reason) :
    exec i s = .refused (.marked reason) := by
  cases i <;> exact commandHandshake_marked _ hr

/-- The markers leave the checksum register unchanged (R83). -/
theorem crcAfter_marker {pos : Nat} (c b : Byte) (h : pos < 2) : crcAfter pos c b = c :=
  if_neg (Nat.not_le.mpr h)

/-- A covered byte steps the checksum register (R92). -/
theorem crcAfter_covered {pos : Nat} (c b : Byte) (h : 2 ≤ pos) : crcAfter pos c b = crc8Step c b :=
  if_pos h

/-- The output handshake below the last byte. -/
theorem outputHandshake_emit {n : Nat} {b : Byte} (hf : s.flen = some n) (hp : s.pos + 1 < n)
    (hb : s.fb[s.pos]? = some b) : outputHandshake s = .next (s.emitByte b) := by
  simp [outputHandshake, hf, hb, hp, Nat.ne_of_lt hp]

/-- The output handshake at the last byte. -/
theorem outputHandshake_final (hf : s.flen = some (s.pos + 1)) : outputHandshake s = .next s.finalByte := by
  simp [outputHandshake, hf]

/-- If the output handshake goes on, it was R92's step or R93's. -/
theorem outputHandshake_next (h : outputHandshake s = .next t) :
    (∃ n b, s.flen = some n ∧ s.pos + 1 < n ∧ s.fb[s.pos]? = some b ∧ t = s.emitByte b) ∨
      (s.flen = some (s.pos + 1) ∧ t = s.finalByte) := by
  cases hf : s.flen with
  | none => simp [outputHandshake, hf] at h
  | some n =>
    by_cases he : s.pos + 1 = n
    · subst he
      rw [outputHandshake_final hf] at h
      cases h
      exact .inr ⟨rfl, rfl⟩
    · by_cases hl : s.pos + 1 < n
      · cases hb : s.fb[s.pos]? with
        | none => simp [outputHandshake, hf, hb, he] at h
        | some b =>
          rw [outputHandshake_emit hf hl hb] at h
          cases h
          exact .inl ⟨n, b, rfl, hl, rfl, rfl⟩
      · simp [outputHandshake, hf, he, hl] at h

/-- The output handshake never refuses. -/
theorem outputHandshake_not_refused (reason : Refusal) : outputHandshake s ≠ .refused reason := by
  unfold outputHandshake
  split <;> (try split) <;> (try split) <;> (try split) <;> simp

end Sys2Proof.Machine
end

