-- ==== Sys2Proof/Laws/Step.lean ====
section
/-! SUPPORT. What a step can do, said once (41_checksum_and_framing.md R91 to R95, 70_reset_and_hazards.md R170). -/

namespace Sys2Proof.Machine

variable {s t : State}

theorem ports_cons {x : PortInputs} {rest : List PortInputs} (h : s.inputs = x :: rest) : s.ports = x := by
  simp [State.ports, h]

theorem advance_cons {x : PortInputs} {rest : List PortInputs} (h : s.inputs = x :: rest) :
    s.advance = { s with inputs := rest } := by
  simp [State.advance, h]

/-- With reset asserted the step is the reset event, whatever else is driven (R145). -/
theorem step_reset (h : s.ports.reset = true) : step s = .next s.advance.resetBlock := by
  simp [step, h]

/-- A marked state has no step but reset (R95 case 3). -/
theorem step_marked {reason : RefuseReason} (h : s.ports.reset = false) (hr : s.refused = some reason) :
    step s = .refused (.marked reason) := by
  simp [step, h, hr]

/-- `IDLE` with a request presented: the step is `exec` of the decoded request. -/
theorem step_accept {c : Request} (h : s.ports.reset = false) (hr : s.refused = none) (hp : s.phase = .idle)
    (hc : s.ports.cmd = some c) : step s = exec (decodeRequest c) s.advance := by
  simp [step, h, hr, hp, hc]

/-- `IDLE` with no request: nothing happens (R95 case 1). -/
theorem step_idle (h : s.ports.reset = false) (hr : s.refused = none) (hp : s.phase = .idle)
    (hc : s.ports.cmd = none) : step s = .next s.advance := by
  simp [step, h, hr, hp, hc]

/-- `EMIT` with a sink that does not take: the block holds (R95 case 2). -/
theorem step_hold (h : s.ports.reset = false) (hr : s.refused = none) (hp : s.phase = .emit)
    (ho : s.ports.outReady = false) : step s = .next s.advance := by
  simp [step, h, hr, hp, ho]

/-- `EMIT` with a sink that takes: the output handshake. -/
theorem step_output (h : s.ports.reset = false) (hr : s.refused = none) (hp : s.phase = .emit)
    (ho : s.ports.outReady = true) : step s = outputHandshake s.advance := by
  simp [step, h, hr, hp, ho]

/-- If a step goes on, it was one of these, each with its guard. -/
theorem step_cases (h : step s = .next t) :
    (s.ports.reset = true ∧ t = s.advance.resetBlock) ∨
    (s.ports.reset = false ∧ s.refused = none ∧
      ((s.phase = .idle ∧ s.ports.cmd = none ∧ t = s.advance) ∨
       (s.phase = .emit ∧ s.ports.outReady = false ∧ t = s.advance) ∨
       (s.phase = .idle ∧ ∃ c p, s.ports.cmd = some c ∧ payloadOf (decodeRequest c) = some p ∧
          t = s.advance.accept (cmdByte (decodeRequest c)) p) ∨
       (s.phase = .idle ∧ ∃ c reason, s.ports.cmd = some c ∧ payloadOf (decodeRequest c) = none ∧
          t = s.advance.refuse reason ∧
          (decodeRequest c = .reserved (cmdByte (decodeRequest c)) ∧
              reason = .reservedCode (cmdByte (decodeRequest c)) ∨
            ∃ index r g b, decodeRequest c = .setPixel index r g b ∧ maxIndex < index ∧
              reason = .indexOutOfRange index)) ∨
       (s.phase = .emit ∧ s.ports.outReady = true ∧ ∃ n b, s.flen = some n ∧ s.pos + 1 < n ∧
          s.fb[s.pos]? = some b ∧ t = s.advance.emitByte b) ∨
       (s.phase = .emit ∧ s.ports.outReady = true ∧ s.flen = some (s.pos + 1) ∧ t = s.advance.finalByte))) := by
  cases hr : s.ports.reset with
  | true => rw [step_reset hr] at h; cases h; exact .inl ⟨rfl, rfl⟩
  | false =>
    cases hm : s.refused with
    | some reason => rw [step_marked hr hm] at h; cases h
    | none =>
      refine .inr ⟨rfl, rfl, ?_⟩
      cases hp : s.phase with
      | idle =>
        cases hc : s.ports.cmd with
        | none => rw [step_idle hr hm hp hc] at h; cases h; exact .inl ⟨rfl, rfl, rfl⟩
        | some c =>
          rw [step_accept hr hm hp hc] at h
          cases hi : payloadOf (decodeRequest c) with
          | some p =>
            rw [exec_of_payload (s := s.advance) hi hp hm] at h
            cases h
            exact .inr (.inr (.inl ⟨rfl, c, p, rfl, hi, rfl⟩))
          | none =>
            obtain ⟨reason, he, hw⟩ := exec_of_no_payload (s := s.advance) hi hp hm
            rw [he] at h
            cases h
            exact .inr (.inr (.inr (.inl ⟨rfl, c, reason, rfl, hi, rfl, hw⟩)))
      | emit =>
        cases ho : s.ports.outReady with
        | false => rw [step_hold hr hm hp ho] at h; cases h; exact .inr (.inl ⟨rfl, rfl, rfl⟩)
        | true =>
          rw [step_output hr hm hp ho] at h
          rcases outputHandshake_next h with ⟨n, b, hf, hl, hb, ht⟩ | ⟨hf, ht⟩
          · exact .inr (.inr (.inr (.inr (.inl ⟨rfl, rfl, n, b, hf, hl, hb, ht⟩))))
          · exact .inr (.inr (.inr (.inr (.inr ⟨rfl, rfl, hf, ht⟩))))

@[simp] theorem run_zero (s : State) : run 0 s = .next s := rfl

/-- A run peels off its first step. -/
theorem run_succ (k : Nat) (h : step s = .next t) : run (k + 1) s = run k t := by
  simp [run, h]

/-- A run that goes on: its first step did, and the rest from there. -/
theorem run_succ_next {k : Nat} {u : State} (h : run (k + 1) s = .next u) :
    ∃ t, step s = .next t ∧ run k t = .next u := by
  cases hs : step s with
  | next t => exact ⟨t, rfl, by rwa [run_succ k hs] at h⟩
  | fault r => simp [run, hs] at h
  | refused r => simp [run, hs] at h

/-- An invariant of every step holds along every run. -/
theorem run_keeps {P : State → Prop} (keep : ∀ a b, P a → step a = .next b → P b) {k : Nat} {u : State}
    (hs : P s) (h : run k s = .next u) : P u := by
  induction k generalizing s with
  | zero => cases h; exact hs
  | succ k ih =>
    obtain ⟨t, ht, hu⟩ := run_succ_next h
    exact ih (keep _ _ hs ht) hu

end Sys2Proof.Machine
end

