-- ==== Sys2Proof/Laws/Inv.lean ====
section
/-! SUPPORT. The shapes a state that meets the invariant has: in `IDLE`, just accepted, and in mid-frame. -/

namespace Sys2Proof.Machine

variable {s t : State}

/-- A state in `IDLE` with the reset values of the sequencer meets the invariant. -/
theorem inv_of_idle (hp : s.phase = .idle) (h0 : s.pos = 0) (hf : s.flen = none) (hb : s.fb = [])
    (hc : s.crc = 0x00#8) : s.Inv where
  sequencer :=
    { idle_zero := fun _ => ⟨h0, hc⟩
      emit_flen := fun h => by simp [hp] at h
      emit_crc_start := fun h => by simp [hp] at h
      emit_crc := fun h => by simp [hp] at h }
  idle_no_value := fun _ => ⟨hf, hb⟩
  emit_not_refused := fun h => by simp [hp] at h
  emit_latch := fun h => by simp [hp] at h

/-- The accept step of a command in the domain of R100 leads to a state that meets the invariant. -/
theorem inv_of_accept {i : Instr} {p : List Byte} (hi : payloadOf i = some p) (hr : s.refused = none) :
    (s.accept (cmdByte i) p).Inv where
  sequencer :=
    { idle_zero := fun h => by simp at h
      emit_flen := fun _ => ⟨_, rfl, by rcases payloadOf_length hi with h | h | h <;> simp [h], Nat.zero_le _⟩
      emit_crc_start := fun _ _ => rfl
      emit_crc := fun _ h => by simp at h }
  idle_no_value := fun h => by simp at h
  emit_not_refused := fun _ => hr
  emit_latch := fun _ => ⟨i, p, hi, rfl, rfl⟩

/-- The invariant speaks of the sequencer and the mark alone: a state that agrees on these meets it too. -/
theorem Inv_congr (hs : s.Inv) (hp : t.phase = s.phase) (h0 : t.pos = s.pos) (hf : t.flen = s.flen) (hb : t.fb = s.fb)
    (hc : t.crc = s.crc) (hr : t.refused = s.refused) : t.Inv where
  sequencer :=
    { idle_zero := by rw [hp, h0, hc]; exact hs.sequencer.idle_zero
      emit_flen := by rw [hp, h0, hf]; exact hs.sequencer.emit_flen
      emit_crc_start := by rw [hp, h0, hc]; exact hs.sequencer.emit_crc_start
      emit_crc := by rw [hp, h0, hc, hb]; exact hs.sequencer.emit_crc }
  idle_no_value := by rw [hp, hf, hb]; exact hs.idle_no_value
  emit_not_refused := by rw [hp, hr]; exact hs.emit_not_refused
  emit_latch := by rw [hp, hf, hb]; exact hs.emit_latch

/-- What a state in mid-frame holds: the latch of a command, its length, and a position inside the frame. -/
theorem Inv_mid_frame (hs : s.Inv) (hp : s.phase = .emit) :
    ∃ i p, payloadOf i = some p ∧ s.fb = [marker0, marker1] ++ frameBody (cmdByte i) p ∧
      s.flen = some (p.length + 6) ∧ s.pos ≤ p.length + 5 ∧ s.fb.length = p.length + 5 := by
  obtain ⟨i, p, hi, hfb, hfl⟩ := hs.emit_latch hp
  obtain ⟨n, hn, _, hpos⟩ := hs.sequencer.emit_flen hp
  rw [hfl] at hn
  cases hn
  exact ⟨i, p, hi, hfb, hfl, by omega, by simp [hfb]⟩

/-- At the last offset the checksum register holds the checksum of the covered bytes. -/
theorem Inv_final_crc {i : Instr} {p : List Byte} (hs : s.Inv) (hp : s.phase = .emit)
    (hfb : s.fb = [marker0, marker1] ++ frameBody (cmdByte i) p) (h0 : s.pos = p.length + 5) :
    s.crc = crc8 (frameBody (cmdByte i) p) := by
  rw [hs.sequencer.emit_crc hp (by omega), hfb, h0]
  simp only [List.cons_append, List.nil_append, List.drop_succ_cons, List.drop_zero]
  rw [List.take_of_length_le (by simp)]

/-- A step spends exactly the inputs it sampled. -/
theorem step_inputs (h : step s = .next t) : t.inputs = s.inputs.tail := by
  rcases step_cases h with ⟨_, rfl⟩ | ⟨_, _, hh⟩
  · rfl
  · rcases hh with ⟨_, _, rfl⟩ | ⟨_, _, rfl⟩ | ⟨_, _, _, _, _, rfl⟩ | ⟨_, _, _, _, _, rfl, _⟩ |
      ⟨_, _, _, _, _, _, _, rfl⟩ | ⟨_, _, _, rfl⟩ <;> rfl

end Sys2Proof.Machine
end

