-- ==== Sys2Proof/Laws/PerInstr.lean ====
section
/-! SUPPORT. Statements about every command as syntax, one lemma per constructor. -/

namespace Sys2Proof.Laws.RequestRoundTrip

/-- A well-formed command is read back from its request (30_encoding.md R66, R71), at any port widths. -/
def Statement (i : Instr) : Prop := ∀ p : Params, i.wf p = true → decodeRequest (encodeRequest i) = i

theorem showCmd : Statement .showCmd := fun _ _ => rfl

theorem setPixel (index r g b : Nat) : Statement (.setPixel index r g b) := fun _ _ => rfl

theorem brightness (value : Int) : Statement (.brightness value) := fun _ _ => rfl

theorem reserved (code : Byte) : Statement (.reserved code) := by
  intro p h
  simp only [Instr.wf, isReservedCode, Bool.and_eq_true, bne_iff_ne] at h
  simp [decodeRequest, encodeRequest, h.1.1, h.1.2, h.2]

end Sys2Proof.Laws.RequestRoundTrip
end

