-- ==== Sys2Proof/Laws/Stream.lean ====
section
/-! SUPPORT. The part of the frame in flight that is still to come, and the output handshake in its terms. -/

namespace Sys2Proof.Machine

variable {s t : State}

/-- The bytes of the frame in flight that the block has still to emit, its checksum last. -/
def State.remaining (s : State) : List Byte :=
  match s.phase with
  | .idle => []
  | .emit => (s.fb ++ [crc8 (s.fb.drop 2)]).drop s.pos

theorem remaining_idle (hp : s.phase = .idle) : s.remaining = [] := by
  simp [State.remaining, hp]

/-- Just after the accept step the whole frame is still to come. -/
theorem remaining_accept (s : State) (cmd : Byte) (p : List Byte) : (s.accept cmd p).remaining = frame cmd p := by
  simp [State.remaining, frame]

/-- In mid-frame at least the checksum is still to come. -/
theorem remaining_eq_nil (hs : s.Inv) : s.remaining = [] ↔ s.phase = .idle := by
  cases hp : s.phase with
  | idle => simp [remaining_idle hp]
  | emit =>
    obtain ⟨i, p, _, _, _, hpos, hlen⟩ := Inv_mid_frame hs hp
    simp [State.remaining, hp]
    omega

/-- One output handshake moves the first byte still to come to the end of the stream. -/
theorem step_moves_one_byte (hs : s.Inv) (hp : s.phase = .emit) (hr : s.ports.reset = false)
    (ho : s.ports.outReady = true) :
    ∃ t b, step s = .next t ∧ t.stream = s.stream ++ [b] ∧ s.remaining = b :: t.remaining ∧
      t.truncations = s.truncations ∧ t.refused = none := by
  have hm := hs.emit_not_refused hp
  obtain ⟨i, p, _, hfb, hfl, hpos, hlen⟩ := Inv_mid_frame hs hp
  by_cases hl : s.pos = p.length + 5
  · have hd : s.fb.drop 2 = frameBody (cmdByte i) p := by rw [hfb]; rfl
    refine ⟨s.advance.finalByte, s.crc, ?_, rfl, ?_, rfl, hm⟩
    · rw [step_output hr hm hp ho]
      exact outputHandshake_final (by simp [hfl, hl])
    · simp only [State.remaining, hp, State.finalByte_phase]
      rw [List.drop_append_of_le_length (by omega), List.drop_of_length_le (by omega), hd,
        Inv_final_crc hs hp hfb hl]
      rfl
  · have hlt : s.pos < s.fb.length := by omega
    refine ⟨s.advance.emitByte s.fb[s.pos], s.fb[s.pos], ?_, rfl, ?_, rfl, hm⟩
    · rw [step_output hr hm hp ho]
      exact outputHandshake_emit hfl (by show s.pos + 1 < _; omega) (List.getElem?_eq_getElem hlt)
    · simp only [State.remaining, hp, State.emitByte_phase, State.advance_phase, State.emitByte_fb, State.advance_fb,
        State.emitByte_pos, State.advance_pos]
      rw [List.drop_eq_getElem_cons (by simp; omega), List.getElem_append_left hlt]

end Sys2Proof.Machine
end

