-- ==== Sys2Proof/Tests/Slice0.lean ====
section
/-! SUPPORT. Tests: the ill-formed terms WellFormed refuses, decoding of the codes the spec writes out, one step at a time
against the vectors of 95_test_vectors.md, and for each statement with hypotheses a state that meets them. -/

namespace Sys2Proof.Machine.Tests

/-! ### WellFormed refuses -/

theorem smoke_index_above_16_bits : (Instr.setPixel 65536 0 0 0).wf Params.default = false := by decide
theorem smoke_r_above_port : (Instr.setPixel 0 256 0 0).wf Params.default = false := by decide
theorem smoke_g_above_port : (Instr.setPixel 0 0 256 0).wf Params.default = false := by decide
theorem smoke_b_above_port : (Instr.setPixel 0 0 0 256).wf Params.default = false := by decide
theorem smoke_value_above_port : (Instr.brightness 32768).wf Params.default = false := by decide
theorem smoke_value_below_port : (Instr.brightness (-32769)).wf Params.default = false := by decide
theorem smoke_show_is_not_reserved : (Instr.reserved 0x04#8).wf Params.default = false := by decide
theorem smoke_set_pixel_is_not_reserved : (Instr.reserved 0x10#8).wf Params.default = false := by decide
theorem smoke_brightness_is_not_reserved : (Instr.reserved 0x13#8).wf Params.default = false := by decide
theorem smoke_channel_port_too_narrow : Params.wf ⟨7, 16⟩ = false := by decide
theorem smoke_brightness_port_too_narrow : Params.wf ⟨8, 8⟩ = false := by decide
theorem smoke_no_pixels : ledCountOk 0 = false := by decide
theorem smoke_too_many_pixels : ledCountOk 65537 = false := by decide

/-! ### Decoding: the binary codes of 30_encoding.md R66, the operands bit by bit at the widths 8 and 16 (log 4) -/

theorem test_decode_show : decodeTableWord 8 0b00000100 = some .showCmd := by decide
/-- `SET_PIXEL 3, 255, 0, 128`, E2: value, b, g, r, index, code from the top. -/
theorem test_decode_set_pixel :
    decodeTableWord 64 0b0000000000000000_10000000_00000000_11111111_0000000000000011_00010000 =
      some (.setPixel 3 255 0 128) := by decide
/-- `BRIGHTNESS -5`, V-BR-2: two's complement. -/
theorem test_decode_brightness :
    decodeTableWord 64 0b1111111111111011_00000000_00000000_00000000_0000000000000000_00010011 =
      some (.brightness (-5)) := by decide
/-- V-RS-6. -/
theorem test_decode_reserved : decodeTableWord 8 0b11111111 = some (.reserved 0xFF#8) := by decide
theorem test_decode_refuses_a_wide_word : decodeWord Params.default (2 ^ 64) = .error .wordTooWide := by rfl

/-! ### Vectors of 95_test_vectors.md -/

/-- V-CRC-17. -/
theorem test_crc_check_value :
    crc8 [0x31#8, 0x32#8, 0x33#8, 0x34#8, 0x35#8, 0x36#8, 0x37#8, 0x38#8, 0x39#8] = 0xF4#8 := by decide +kernel
/-- V-CRC-18. -/
theorem test_crc_of_the_markers : crc8 [0xA5#8, 0x5A#8] = 0xD8#8 := by decide +kernel
/-- V-SP-10: masked channels. -/
theorem test_set_pixel_masks :
    frameOf (.setPixel 279 0x123 0x45 0x6789) =
      some [0xA5#8, 0x5A#8, 0x10#8, 0x05#8, 0x00#8, 0x17#8, 0x01#8, 0x23#8, 0x45#8, 0x89#8, 0xC2#8] := by decide +kernel
/-- V-BR-10: saturates, does not wrap. -/
theorem test_brightness_saturates :
    frameOf (.brightness 256) = some [0xA5#8, 0x5A#8, 0x13#8, 0x01#8, 0x00#8, 0xFF#8, 0xC5#8] := by decide +kernel
/-- V-SH-2: fields ignored. -/
theorem test_show_ignores_fields :
    frameOf (decodeRequest ⟨0x04#8, 7, 1, 2, 3, 99⟩) =
      some [0xA5#8, 0x5A#8, 0x04#8, 0x00#8, 0x00#8, 0xAB#8] := by decide +kernel
/-- V-SQ-5. -/
theorem test_redraw_sequence :
    (Sequence.redraw [⟨1, 0, 0, 0⟩, ⟨4, 5, 5, 5⟩]).expand.toOption =
      some [.setPixel 1 0 0 0, .setPixel 4 5 5 5, .showCmd] := by decide
/-- R121: an order that sends an index twice is not admitted. -/
theorem test_blackout_refuses_a_repeated_index :
    (Sequence.blackout 3 [0, 1, 1]).expand.toOption = none := by decide
/-- R126: a redraw does not come before a quit blackout. -/
theorem test_tick_order :
    tickAdmitted [(.redraw, .redraw []), (.quitCheck, .blackout 1 [0])] = false := by decide

/-! ### One step on small states -/

/-- The next state of an outcome, if there is one. -/
def nextOf : StepOutcome → Option State
  | .next t => some t
  | .fault _ => none
  | .refused _ => none

/-- Power-on with one record of inputs. -/
def atReset (x : PortInputs) : State := State.resetWith [x]

/-- E2's request, `SET_PIXEL 3, 255, 0, 128` with `value = 77` (V-SH-3). -/
def pixelRequest : Request := ⟨0x10#8, 3, 255, 0, 128, 77⟩

/-- V-SEQ-1 after accept: `fb[0..9]`. -/
def pixelLatch : List Byte :=
  [0xA5#8, 0x5A#8, 0x10#8, 0x05#8, 0x00#8, 0x03#8, 0x00#8, 0xFF#8, 0x00#8, 0x80#8]

/-- V-SEQ-1 after accept, then `pos` bytes of its table sent, with the register it gives. -/
def midFrame (pos : Nat) (crc : Byte) (stream : List Byte) (x : PortInputs) : State :=
  { phase := .emit, pos := pos, flen := some 11, fb := pixelLatch,
    crc := crc, stream := stream, refused := none, truncations := [], inputs := [x] }

/-- V-SEQ-1, the state after accept. -/
theorem test_step_accepts_set_pixel :
    (nextOf (step (atReset (.present pixelRequest)))).map (fun t => (t.phase, t.pos, t.flen, t.fb)) =
      some (.emit, 0, some 11, pixelLatch) := by decide
/-- V-SEQ-1, row 3: byte 05, register 4C. -/
theorem test_step_emits_a_covered_byte :
    (nextOf (step (midFrame 3 0x70#8 [] .take))).map (fun t => (t.pos, t.stream, t.crc)) =
      some (4, [0x05#8], 0x4C#8) := by decide +kernel
/-- V-SEQ-1, row 10: the checksum 99, back in IDLE. -/
theorem test_step_emits_the_checksum :
    (nextOf (step (midFrame 10 0x99#8 [] .take))).map (fun t => (t.phase, t.pos, t.stream, t.crc)) =
      some (.idle, 0, [0x99#8], 0x00#8) := by decide
/-- P5: reset at `pos = 4` records one truncation. -/
theorem test_reset_in_mid_frame :
    (nextOf (step (midFrame 4 0x4C#8 [0xA5#8, 0x5A#8, 0x10#8, 0x05#8] .assertReset))).map
        (fun t => (t.phase, t.pos, t.crc, t.stream, t.truncations)) =
      some (.idle, 0, 0x00#8, [0xA5#8, 0x5A#8, 0x10#8, 0x05#8], [{ sent := 4, streamLength := 4 }]) := by decide
/-- V-RS-3: code 0x11 marks the state and emits no byte. -/
theorem test_step_refuses_reserved_code :
    (nextOf (step (atReset (.present ⟨0x11#8, 0, 0, 0, 0, 0⟩)))).map (fun t => (t.phase, t.stream, t.refused)) =
      some (.idle, [], some (.reservedCode 0x11#8)) := by decide
/-- V-SP-17: an index above 16 bits. -/
theorem test_step_refuses_wide_index :
    (nextOf (step (atReset (.present ⟨0x10#8, 65536, 0, 0, 0, 0⟩)))).map (fun t => (t.stream, t.refused)) =
      some ([], some (.indexOutOfRange 65536)) := by decide
/-- The host's placement of a word: from a state in mid-frame the very next step runs it. -/
theorem test_with_fetch_word :
    (nextOf (step ((midFrame 4 0x4C#8 [] .take).withFetchWord 8 0x13))).map (fun t => (t.phase, t.flen)) =
      some (.emit, some 7) := by decide

/-! ### Witnesses: for each statement with hypotheses, states and operands that meet them all together -/

/-- A state in mid-frame of the table of V-SEQ-1 meets the invariant. -/
theorem midFrame_inv (pos : Nat) (crc : Byte) (stream : List Byte) (x : PortInputs) (hpos : pos ≤ 10)
    (h2 : pos ≤ 2 → crc = 0x00#8)
    (hc : 3 ≤ pos → crc = crc8 ((pixelLatch.drop 2).take (pos - 2))) :
    (midFrame pos crc stream x).Inv where
  sequencer :=
    { idle_zero := fun h => by cases h
      emit_flen := fun _ => ⟨11, rfl, by simp, hpos⟩
      emit_crc_start := fun _ => h2
      emit_crc := fun _ => hc }
  idle_no_value := fun h => by cases h
  emit_not_refused := fun _ => rfl
  emit_latch := fun _ => ⟨.setPixel 3 255 0 128, pixelPayload 3 255 0 128, rfl, rfl, rfl⟩

/-- V-SEQ-1 at `pos = 4`, with its four bytes on the stream. -/
abbrev cut (x : PortInputs) : State := midFrame 4 0x4C#8 [0xA5#8, 0x5A#8, 0x10#8, 0x05#8] x

theorem cut_inv (x : PortInputs) : (cut x).Inv :=
  midFrame_inv 4 _ _ x (by decide) (by decide) (fun _ => by decide +kernel)

theorem atReset_inv (x : PortInputs) : (atReset x).Inv := inv_of_idle rfl rfl rfl rfl rfl

/-- The last byte of V-SEQ-1. -/
abbrev last (x : PortInputs) : State := midFrame 10 0x99#8 [] x

theorem last_inv (x : PortInputs) : (last x).Inv :=
  midFrame_inv 10 _ _ x (by decide) (by decide) (fun _ => by decide +kernel)

/-- A state that carries the refused mark, with reset asserted next or not. -/
abbrev marked (x : PortInputs) : State := (atReset x).refuse (.reservedCode 0x11#8)

theorem witness_PhaseIsSetOnlyByAcceptFinalByteAndReset :
    (∃ t, step (atReset (.present pixelRequest)) = .next t ∧ (atReset (.present pixelRequest)).phase = .idle ∧
      t.phase = .emit) ∧
    (∃ t, step (last .take) = .next t ∧ (last .take).phase = .emit ∧ t.phase = .idle) ∧
    (∃ t, step (cut .assertReset) = .next t ∧ (cut .assertReset).phase = .emit ∧ t.phase = .idle) :=
  ⟨⟨_, rfl, rfl, rfl⟩, ⟨_, rfl, rfl, rfl⟩, ⟨_, rfl, rfl, rfl⟩⟩

theorem witness_PosCountsTheBytesOfTheFrame :
    (∃ t, (cut .assertReset).Inv ∧ step (cut .assertReset) = .next t ∧ (cut .assertReset).ports.reset = true) ∧
    (∃ t, (cut .take).Inv ∧ step (cut .take) = .next t ∧ (cut .take).emitEnabled = true ∧ t.phase = .emit) ∧
    (∃ t, (last .take).Inv ∧ step (last .take) = .next t ∧ (last .take).finalEnabled = true) ∧
    (∃ t, (atReset (.present pixelRequest)).Inv ∧ step (atReset (.present pixelRequest)) = .next t ∧
      (atReset (.present pixelRequest)).acceptEnabled = true ∧ t.phase = .emit) ∧
    (∃ t, (cut .quiet).Inv ∧ step (cut .quiet) = .next t ∧ (cut .quiet).ports.reset = false ∧
      (cut .quiet).emitEnabled = false ∧ (cut .quiet).finalEnabled = false ∧ (cut .quiet).acceptEnabled = false) :=
  ⟨⟨_, cut_inv _, rfl, rfl⟩, ⟨_, cut_inv _, rfl, rfl, rfl⟩, ⟨_, last_inv _, rfl, rfl⟩,
    ⟨_, atReset_inv _, rfl, rfl, rfl⟩, ⟨_, cut_inv _, rfl, rfl, rfl, rfl, rfl⟩⟩

theorem witness_StreamIsAppendOnly :
    (∃ t, step (cut .take) = .next t ∧ t.stream = (cut .take).stream ++ [0x00#8]) ∧
    (∃ t, step (cut .assertReset) = .next t) :=
  ⟨⟨_, rfl, rfl⟩, ⟨_, rfl⟩⟩

theorem witness_OutputPortShowsTheByteHandedOver :
    ((cut .take).Inv ∧ (cut .take).phase = .emit ∧ (cut .take).ports.reset = false ∧ (cut .take).ports.outReady = true) ∧
    ((last .take).Inv ∧ (last .take).phase = .emit ∧ (last .take).ports.reset = false ∧
      (last .take).ports.outReady = true) ∧
    (atReset .quiet).phase = .idle :=
  ⟨⟨cut_inv _, rfl, rfl, rfl⟩, ⟨last_inv _, rfl, rfl, rfl⟩, rfl⟩

theorem witness_EveryStepKeepsTheInvariant : ∃ t, (cut .take).Inv ∧ step (cut .take) = .next t :=
  ⟨_, cut_inv _, rfl⟩

theorem witness_EveryReachableStateMeetsTheSequencerInvariants :
    ∃ t, run 2 (State.resetWith [.present pixelRequest, .take]) = .next t ∧ t.phase = .emit ∧ t.pos = 1 :=
  ⟨_, rfl, rfl, rfl⟩

theorem witness_StreamIsTheFramesInAcceptanceOrder :
    (∃ t, (atReset (.present pixelRequest)).Inv ∧ (atReset (.present pixelRequest)).phase = .idle ∧
      noReset ((atReset (.present pixelRequest)).inputs.take 1) = true ∧
      run 1 (atReset (.present pixelRequest)) = .next t ∧ t.phase = .emit) ∧
    (∃ t, (atReset .take).Inv ∧ (atReset .take).phase = .idle ∧ noReset ((atReset .take).inputs.take 1) = true ∧
      run 1 (atReset .take) = .next t ∧ t.phase = .idle) :=
  ⟨⟨_, atReset_inv _, rfl, rfl, rfl, rfl⟩, ⟨_, atReset_inv _, rfl, rfl, rfl, rfl⟩⟩

theorem witness_FrameLayoutByOffset : ([0x03#8] : List Byte).length ≤ 65535 ∧ 0 < ([0x03#8] : List Byte).length := by
  decide

theorem witness_ThreeFrameFormats : 65535 ≤ 65535 := Nat.le_refl _

theorem witness_CodeSelectsTheCommand :
    (Request.mk 0x04#8 0 0 0 0 0).code = 0x04#8 ∧ (Request.mk 0x10#8 0 0 0 0 0).code = 0x10#8 ∧
    (Request.mk 0x13#8 0 0 0 0 0).code = 0x13#8 ∧
    ((Request.mk 0x05#8 0 0 0 0 0).code ≠ 0x04#8 ∧ (Request.mk 0x05#8 0 0 0 0 0).code ≠ 0x10#8 ∧
      (Request.mk 0x05#8 0 0 0 0 0).code ≠ 0x13#8) := by decide

theorem witness_DecodeInvertsEncode :
    Params.default.wf = true ∧ (Instr.setPixel 65535 255 255 255).wf Params.default = true ∧
    (Instr.brightness (-32768)).wf Params.default = true ∧ (Instr.brightness 32767).wf Params.default = true ∧
    (Instr.reserved 0x05#8).wf Params.default = true ∧ Instr.showCmd.wf Params.default = true := by decide

theorem witness_ReaderFindsTheFrameEnd : ∃ f, frameOf (.setPixel 3 255 0 128) = some f := ⟨_, rfl⟩

theorem witness_StreamOfFramesSplitsUniquely :
    (∀ i ∈ [Instr.setPixel 3 255 0 128, .showCmd], hasFrame i = true) ∧
    [Instr.setPixel 3 255 0 128, .showCmd].length ≤ 2 := by decide

theorem witness_CrcLaws :
    ([0x01#8] : List Byte).length = ([0x02#8] : List Byte).length ∧ (0x01#8 : Byte) ≠ 0x02#8 := by decide

theorem witness_LittleEndianPacking : 65535 ≤ 65535 := Nat.le_refl _

theorem witness_ChannelMaskWraps : 255 ≤ 255 := Nat.le_refl _

theorem witness_BrightnessClampSaturates :
    (-1 : Int) < 0 ∧ (256 : Int) > 255 ∧ ((0 : Int) ≤ 255 ∧ (255 : Int) ≤ 255) ∧ 9 ≤ 9 := by decide

theorem witness_EmitStepHandsOverOneLatchedByte :
    (cut .take).phase = .emit ∧ (cut .take).refused = none ∧ (cut .take).ports.reset = false ∧
    (cut .take).ports.outReady = true ∧ (cut .take).flen = some 11 ∧ (cut .take).pos < 11 - 1 ∧
    (cut .take).fb[(cut .take).pos]? = some 0x00#8 := by decide

theorem witness_FinalByteStepHandsOverTheChecksum :
    (last .take).phase = .emit ∧ (last .take).refused = none ∧ (last .take).ports.reset = false ∧
    (last .take).ports.outReady = true ∧ (last .take).flen = some ((last .take).pos + 1) := by decide

theorem witness_EveryAcceptedCommandDeliversItsFrame :
    frameOf .showCmd = some [0xA5#8, 0x5A#8, 0x04#8, 0x00#8, 0x00#8, 0xAB#8] := by decide +kernel

/-- A sink that stalls once and then takes `n` bytes, a request presented all the while. -/
abbrev stalling (n : Nat) : List PortInputs :=
  PortInputs.quiet :: List.replicate n { PortInputs.take with cmd := some pixelRequest }

/-- The hypotheses inside `Delivers`, for the lengths 6, 7 and 11 of the three frames. -/
theorem witness_Delivers :
    ∀ n ∈ [6, 7, 11],
      let s := State.resetWith (stalling (n - 1) ++ PortInputs.take :: [])
      s.phase = .idle ∧ s.refused = none ∧ s.inputs = stalling (n - 1) ++ PortInputs.take :: [] ∧
        noReset (stalling (n - 1) ++ [PortInputs.take]) = true ∧ PortInputs.take.outReady = true ∧
        readyCount (stalling (n - 1) ++ [PortInputs.take]) = n := by decide

/-- The remaining hypothesis of `Delivers`. -/
theorem witness_Delivers_inv (n : Nat) : (State.resetWith (stalling n ++ PortInputs.take :: [])).Inv :=
  inv_of_idle rfl rfl rfl rfl rfl

theorem witness_AtMostOneStepIsEnabled :
    ((atReset .take).ports.reset = false ∧ (atReset .take).refused = none ∧ (atReset .take).phase = .idle ∧
      (atReset .take).ports.cmd = none) ∧
    ((cut .quiet).ports.reset = false ∧ (cut .quiet).refused = none ∧ (cut .quiet).phase = .emit ∧
      (cut .quiet).ports.outReady = false) ∧
    ((marked .take).ports.reset = false ∧ (marked .take).refused = some (.reservedCode 0x11#8)) := by decide

theorem witness_ShowIsAcceptedAndLatched : (atReset .quiet).phase = .idle ∧ (atReset .quiet).refused = none := by decide

theorem witness_SetPixelIsAcceptedAndLatched :
    (atReset .quiet).phase = .idle ∧ (atReset .quiet).refused = none ∧ 65535 ≤ 65535 := by decide

theorem witness_BrightnessIsAcceptedAndLatched :
    (atReset .quiet).phase = .idle ∧ (atReset .quiet).refused = none := by decide

theorem witness_IndexAboveSixteenBitsMarksTheState :
    (atReset .quiet).phase = .idle ∧ (atReset .quiet).refused = none ∧ 65535 < 65536 := by decide

theorem witness_ReservedCodeMarksTheState :
    (atReset .quiet).phase = .idle ∧ (atReset .quiet).refused = none ∧
    (Request.mk 0x11#8 0 0 0 0 0).code ≠ 0x04#8 ∧ (Request.mk 0x11#8 0 0 0 0 0).code ≠ 0x10#8 ∧
    (Request.mk 0x11#8 0 0 0 0 0).code ≠ 0x13#8 := by decide

theorem witness_SetPixelDeliversElevenBytes :
    65535 ≤ 65535 ∧ (atReset .quiet).phase = .idle ∧ (atReset .quiet).refused = none ∧ 65535 < 65536 := by decide

theorem witness_BrightnessDeliversSevenBytes : (-1 : Int) < 0 ∧ (256 : Int) > 255 := by decide

theorem witness_DontCareFieldsHaveNoEffect :
    (Request.mk 0x10#8 3 255 0 128 77).code = (Request.mk 0x10#8 3 255 0 128 0).code ∧
    (Request.mk 0x13#8 1 2 3 4 77).code = (Request.mk 0x13#8 0 0 0 0 77).code ∧
    (Request.mk 0x13#8 1 2 3 4 77).value = (Request.mk 0x13#8 0 0 0 0 77).value := by decide

theorem witness_StepRunsThePresentedCommand :
    let s := atReset { reset := false, cmd := some (requestOfWord Params.default 0x04), outReady := true }
    s.phase = .idle ∧ s.refused = none ∧ decodeWord Params.default 0x04 = .ok .showCmd ∧
      s.inputs = [{ reset := false, cmd := some (requestOfWord Params.default 0x04), outReady := true }] :=
  ⟨rfl, rfl, rfl, rfl⟩

theorem witness_SweepSendsEachPixelOnceThenShow :
    1 ≤ 3 ∧ 3 ≤ 65536 ∧ [2, 0, 1].Perm (List.range 3) := by decide

theorem witness_RedrawSendsChangedPixelsThenShow :
    ([PixelColor.mk 1 0 0 0, PixelColor.mk 65535 5 5 5].map PixelColor.index).Nodup ∧
    (∀ x ∈ [PixelColor.mk 1 0 0 0, PixelColor.mk 65535 5 5 5], x.index ≤ 65535) ∧
    [PixelColor.mk 1 0 0 0, PixelColor.mk 65535 5 5 5] ≠ [] := by decide

theorem witness_TickSequencesFollowTheStepOrder :
    tickAdmitted [(.quitCheck, .blackout 1 [0]), (.oneShot, .showNow), (.oneShot, .fillAll 1 [0] 1 2 3),
      (.heldBrightness, .brightnessShow 250), (.redraw, .redraw [⟨0, 1, 2, 3⟩])] = true ∧
    expandAll [.brightnessShow 250] = .ok [.brightness 250, .showCmd] ∧ expandAll [.showNow] = .ok [.showCmd] :=
  ⟨by decide, rfl, rfl⟩

theorem witness_IssuedCommandsReachTheStreamInOrder :
    (atReset .quiet).Inv ∧ (atReset .quiet).phase = .idle ∧ (atReset .quiet).refused = none ∧
    ∀ c ∈ [pixelRequest, ⟨0x04#8, 0, 0, 0, 0, 0⟩], hasFrame (decodeRequest c) = true :=
  ⟨atReset_inv _, rfl, rfl, by decide⟩

theorem witness_NoStepFaults : (cut .take).Inv ∧ (last .take).Inv ∧ (atReset .take).Inv :=
  ⟨cut_inv _, last_inv _, atReset_inv _⟩

theorem witness_RefusedMarkIsNeverCleared :
    (∃ t, step (marked .assertReset) = .next t ∧ (marked .assertReset).refused = some (.reservedCode 0x11#8)) ∧
    ((marked .take).ports.reset = false ∧ (marked .take).refused = some (.reservedCode 0x11#8)) ∧
    (∃ t, step (atReset (.present ⟨0x11#8, 0, 0, 0, 0, 0⟩)) = .next t ∧
      (atReset (.present ⟨0x11#8, 0, 0, 0, 0, 0⟩)).refused = none ∧ t.refused = some (.reservedCode 0x11#8)) ∧
    (∃ t, step (atReset (.present ⟨0x10#8, 65536, 0, 0, 0, 0⟩)) = .next t ∧
      (atReset (.present ⟨0x10#8, 65536, 0, 0, 0, 0⟩)).refused = none ∧ t.refused = some (.indexOutOfRange 65536)) :=
  ⟨⟨_, rfl, rfl⟩, ⟨rfl, rfl⟩, ⟨_, rfl, rfl, rfl⟩, ⟨_, rfl, rfl, rfl⟩⟩

theorem witness_SinkThatNeverTakesLeavesTheBlockStuck :
    (cut .quiet).phase = .emit ∧ (cut .quiet).refused = none ∧ 1 ≤ (cut .quiet).inputs.length ∧
    noReset ((cut .quiet).inputs.take 1) = true ∧ readyCount ((cut .quiet).inputs.take 1) = 0 := by decide

theorem witness_RunThatEndsWellHoldsWholeFrames :
    (∃ t, run 0 (State.resetWith []) = .next t ∧ t.endsWell = true ∧ t.truncations = []) ∧
    (∃ t, run 3 (State.resetWith [.present pixelRequest, .take, .assertReset]) = .next t ∧ t.endsWell = true ∧
      t.truncations = [{ sent := 1, streamLength := 1 }]) :=
  ⟨⟨_, rfl, rfl, rfl⟩, ⟨_, rfl, rfl, rfl⟩⟩

theorem witness_ResetEventLeavesTheResetValues :
    (cut .assertReset).ports.reset = true ∧ (marked .assertReset).ports.reset = true := by decide

theorem cut_framed (x : PortInputs) : (cut x).Framed := ⟨[], rfl, rfl, rfl⟩

/-- With bytes of the frame on the stream, and with none (`pos = 0`). -/
theorem witness_ResetInMidFrameTruncatesAndIsRecorded :
    ((cut .assertReset).Inv ∧ (cut .assertReset).Framed ∧ (cut .assertReset).phase = .emit ∧
      (cut .assertReset).ports.reset = true ∧ 0 < (cut .assertReset).pos) ∧
    ((midFrame 0 0x00#8 [] .assertReset).Inv ∧ (midFrame 0 0x00#8 [] .assertReset).Framed ∧
      (midFrame 0 0x00#8 [] .assertReset).phase = .emit ∧ (midFrame 0 0x00#8 [] .assertReset).ports.reset = true) ∧
    ∃ g, frameOf .showCmd = some g :=
  ⟨⟨cut_inv _, cut_framed _, rfl, rfl, by decide⟩,
    ⟨midFrame_inv 0 _ _ _ (by decide) (by decide) (by decide), ⟨[], rfl, rfl, rfl⟩, rfl, rfl⟩, _, rfl⟩

theorem witness_EveryStepKeepsTheStreamFramed :
    ∃ t, (cut .take).Inv ∧ (cut .take).Framed ∧ step (cut .take) = .next t :=
  ⟨_, cut_inv _, cut_framed _, rfl⟩

theorem witness_RequestInMidFrameIsNotTaken :
    (cut .quiet).phase = .emit ∧ (cut .quiet).refused = none := by decide

end Sys2Proof.Machine.Tests
end

/-! ## Sequencer state and ports (10_state.md): what is enabled, the events of a step, and the invariant's preservation -/

section
/-! SUPPORT. Which step is enabled, read off the state (R91 to R95), and what the output port shows there (R29). -/

namespace Sys2Proof.Machine

variable {s : State}

theorem acceptEnabled_iff : s.acceptEnabled = true ↔
    s.ports.reset = false ∧ s.refused = none ∧ s.phase = .idle ∧ ∃ c, s.ports.cmd = some c := by
  simp [State.acceptEnabled, Option.isSome_iff_exists, and_assoc]

theorem emitEnabled_iff : s.emitEnabled = true ↔
    s.ports.reset = false ∧ s.refused = none ∧ s.phase = .emit ∧ s.ports.outReady = true ∧
      ∃ n, s.flen = some n ∧ s.pos + 1 < n := by
  simp [State.emitEnabled, Option.any_eq_true, and_assoc]

theorem finalEnabled_iff : s.finalEnabled = true ↔
    s.ports.reset = false ∧ s.refused = none ∧ s.phase = .emit ∧ s.ports.outReady = true ∧
      s.flen = some (s.pos + 1) := by
  simp [State.finalEnabled, State.atLastByte, and_assoc]

/-- Below the last offset R29's `pos = flen-1` fails. -/
theorem atLastByte_of_emitEnabled (he : s.emitEnabled = true) : s.atLastByte = false := by
  obtain ⟨-, -, -, -, n, hn, hlt⟩ := emitEnabled_iff.mp he
  simp [State.atLastByte, hn, Nat.ne_of_gt hlt]

theorem atLastByte_of_finalEnabled (he : s.finalEnabled = true) : s.atLastByte = true := by
  obtain ⟨-, -, -, -, hf⟩ := finalEnabled_iff.mp he
  simp [State.atLastByte, hf]

/-- Below the last offset the port shows the latch at `pos`. -/
theorem outData_of_emitEnabled (he : s.emitEnabled = true) : s.outData = s.fb[s.pos]? := by
  obtain ⟨-, -, hp, -⟩ := emitEnabled_iff.mp he
  simp [State.outData, hp, atLastByte_of_emitEnabled he]

/-- At the last offset the port shows the checksum register. -/
theorem outData_of_finalEnabled (he : s.finalEnabled = true) : s.outData = some s.crc := by
  obtain ⟨-, -, hp, -⟩ := finalEnabled_iff.mp he
  simp [State.outData, hp, atLastByte_of_finalEnabled he]

theorem outLast_of_emit (hp : s.phase = .emit) : s.outLast = some s.atLastByte := by
  simp [State.outLast, hp]

/-- Where the final-byte step is enabled, it is the step. -/
theorem step_of_finalEnabled (he : s.finalEnabled = true) : step s = .next s.advance.finalByte := by
  obtain ⟨hr, hm, hp, ho, hf⟩ := finalEnabled_iff.mp he
  rw [step_output hr hm hp ho, outputHandshake_final (s := s.advance) hf]

/-- Where the emit step is enabled and the latch has a byte at `pos`, the emit step is the step. -/
theorem step_of_emitEnabled {b : Byte} (he : s.emitEnabled = true) (hb : s.fb[s.pos]? = some b) :
    step s = .next (s.advance.emitByte b) := by
  obtain ⟨hr, hm, hp, ho, n, hn, hlt⟩ := emitEnabled_iff.mp he
  rw [step_output hr hm hp ho, outputHandshake_emit (s := s.advance) hn hlt hb]

/-- The latch of the frame in flight has a byte at every offset below the last. -/
theorem latch_byte_of_emitEnabled (hs : s.Inv) (he : s.emitEnabled = true) : ∃ b, s.fb[s.pos]? = some b := by
  obtain ⟨-, -, hp, -, n, hn, hlt⟩ := emitEnabled_iff.mp he
  obtain ⟨i, p, -, -, hfl, -, hlen⟩ := Inv_mid_frame hs hp
  obtain rfl : p.length + 6 = n := Option.some.inj (hfl.symm.trans hn)
  exact ⟨_, List.getElem?_eq_getElem (by omega)⟩

/-- In mid-frame, with no reset and a sink that takes, one of the two output steps is enabled. -/
theorem emitEnabled_or_finalEnabled (hs : s.Inv) (hp : s.phase = .emit) (hr : s.ports.reset = false)
    (ho : s.ports.outReady = true) : s.emitEnabled = true ∨ s.finalEnabled = true := by
  have hm := hs.emit_not_refused hp
  obtain ⟨i, p, -, -, hfl, hpos, -⟩ := Inv_mid_frame hs hp
  rcases Nat.lt_or_eq_of_le hpos with hlt | heq
  · exact .inl (emitEnabled_iff.mpr ⟨hr, hm, hp, ho, _, hfl, by omega⟩)
  · exact .inr (finalEnabled_iff.mpr ⟨hr, hm, hp, ho, by rw [hfl, heq]⟩)

end Sys2Proof.Machine
end

section
/-! SUPPORT. `step_cases` in the terms of the enabled steps: the six events of a step, for `cases` with names. -/

namespace Sys2Proof.Machine

variable {s t : State}

/-- The events of a step that goes on from `s`, each with the step that was enabled and the state it leads to. -/
inductive StepEvent (s : State) : State → Prop
  | reset (hr : s.ports.reset = true) : StepEvent s s.advance.resetBlock
  | noHandshake (hr : s.ports.reset = false) (hm : s.refused = none) (ha : s.acceptEnabled = false)
      (he : s.emitEnabled = false) (hf : s.finalEnabled = false) : StepEvent s s.advance
  | accept {c : Request} {p : List Byte} (ha : s.acceptEnabled = true) (hc : s.ports.cmd = some c)
      (hi : payloadOf (decodeRequest c) = some p) : StepEvent s (s.advance.accept (cmdByte (decodeRequest c)) p)
  | refuse {c : Request} (reason : RefuseReason) (ha : s.acceptEnabled = true) (hc : s.ports.cmd = some c)
      (hi : payloadOf (decodeRequest c) = none) : StepEvent s (s.advance.refuse reason)
  | emitByte {b : Byte} (he : s.emitEnabled = true) (hb : s.fb[s.pos]? = some b) :
      StepEvent s (s.advance.emitByte b)
  | finalByte (hf : s.finalEnabled = true) : StepEvent s s.advance.finalByte

theorem stepEvent_of_step (h : step s = .next t) : StepEvent s t := by
  rcases step_cases h with ⟨hr, rfl⟩ | ⟨hr, hm, hh⟩
  · exact .reset hr
  rcases hh with ⟨hp, hc, rfl⟩ | ⟨hp, ho, rfl⟩ | ⟨hp, c, p, hc, hi, rfl⟩ | ⟨hp, c, reason, hc, hi, rfl, -⟩ |
      ⟨hp, ho, n, b, hn, hlt, hb, rfl⟩ | ⟨hp, ho, hf, rfl⟩
  · exact .noHandshake hr hm (by simp [State.acceptEnabled, hc]) (by simp [State.emitEnabled, hp])
      (by simp [State.finalEnabled, hp])
  · exact .noHandshake hr hm (by simp [State.acceptEnabled, hp]) (by simp [State.emitEnabled, ho])
      (by simp [State.finalEnabled, ho])
  · exact .accept (acceptEnabled_iff.mpr ⟨hr, hm, hp, c, hc⟩) hc hi
  · exact .refuse reason (acceptEnabled_iff.mpr ⟨hr, hm, hp, c, hc⟩) hc hi
  · exact .emitByte (emitEnabled_iff.mpr ⟨hr, hm, hp, ho, n, hn, hlt⟩) hb
  · exact .finalByte (finalEnabled_iff.mpr ⟨hr, hm, hp, ho, hf⟩)

end Sys2Proof.Machine
end

section
/-! SUPPORT. Each event keeps the invariant of R34. -/

namespace Sys2Proof.Machine

variable {s : State}

theorem inv_advance (hs : s.Inv) : s.advance.Inv := Inv_congr hs rfl rfl rfl rfl rfl rfl

/-- Marking the state in `IDLE` (R141) touches nothing the invariant speaks of there. -/
theorem inv_refuse (hs : s.Inv) (hp : s.phase = .idle) (reason : RefuseReason) : (s.refuse reason).Inv := by
  obtain ⟨hpos, hcrc⟩ := hs.sequencer.idle_zero hp
  obtain ⟨hfl, hfb⟩ := hs.idle_no_value hp
  exact inv_of_idle hp hpos hfl hfb hcrc

/-- R34's two lines on `crc` agree at `pos = 2`, where no covered byte has been sent: from there on `crc` is the checksum
of the covered bytes sent. -/
theorem crc_eq_of_two_le_pos (hs : s.SequencerInv) (hp : s.phase = .emit) (h2 : 2 ≤ s.pos) :
    s.crc = crc8 ((s.fb.drop 2).take (s.pos - 2)) := by
  rcases Nat.eq_or_lt_of_le h2 with heq | hlt
  · rw [hs.emit_crc_start hp (Nat.le_of_eq heq.symm), ← heq, Nat.sub_self, List.take_zero, crc8_nil]
  · exact hs.emit_crc hp hlt

/-- The emit step puts the next byte into the checksum exactly when R34 counts it as covered. -/
theorem crcAfter_eq_crc8 {b : Byte} (hs : s.SequencerInv) (hp : s.phase = .emit) (hb : s.fb[s.pos]? = some b)
    (h2 : 2 ≤ s.pos) : crcAfter s.pos s.crc b = crc8 ((s.fb.drop 2).take (s.pos + 1 - 2)) := by
  have hcov : (s.fb.drop 2)[s.pos - 2]? = some b := by rw [List.getElem?_drop, Nat.add_sub_cancel' h2, hb]
  rw [crcAfter_covered _ _ h2, crc_eq_of_two_le_pos hs hp h2, Nat.sub_add_comm h2, crc8_take_succ _ _ _ hcov]

/-- The emit step below the last byte keeps the invariant. -/
theorem inv_emitByte {b : Byte} {n : Nat} (hs : s.Inv) (hp : s.phase = .emit) (hn : s.flen = some n)
    (hlt : s.pos + 1 < n) (hb : s.fb[s.pos]? = some b) : (s.emitByte b).Inv where
  sequencer :=
    { idle_zero := fun h => by simp [hp] at h
      emit_flen := fun _ => by
        obtain ⟨m, hm, hlen, -⟩ := hs.sequencer.emit_flen hp
        obtain rfl : m = n := Option.some.inj (hm.symm.trans hn)
        exact ⟨m, hn, hlen, Nat.le_sub_one_of_lt hlt⟩
      emit_crc_start := fun _ h => by
        rw [State.emitByte_pos] at h
        rw [State.emitByte_crc, crcAfter_marker _ _ (by omega)]
        exact hs.sequencer.emit_crc_start hp (by omega)
      emit_crc := fun _ h => by
        rw [State.emitByte_pos] at h
        exact crcAfter_eq_crc8 hs.sequencer hp hb (by omega) }
  idle_no_value := fun h => by simp [hp] at h
  emit_not_refused := hs.emit_not_refused
  emit_latch := hs.emit_latch

end Sys2Proof.Machine
end

section
/-! The obligations on state, ports and invariants. -/

namespace Sys2Proof.Machine

/-- Settles O7: each event of a step keeps the invariant. -/
theorem everyStepKeepsTheInvariant : Obligations.EveryStepKeepsTheInvariant := by
  intro s t hs h
  cases stepEvent_of_step h with
  | reset hr => exact inv_of_idle rfl rfl rfl rfl rfl
  | noHandshake => exact inv_advance hs
  | accept ha hc hi =>
    obtain ⟨-, hm, -⟩ := acceptEnabled_iff.mp ha
    exact inv_of_accept hi hm
  | refuse reason ha =>
    obtain ⟨-, -, hp, -⟩ := acceptEnabled_iff.mp ha
    exact inv_refuse (inv_advance hs) hp reason
  | emitByte he hb =>
    obtain ⟨-, -, hp, -, n, hn, hlt⟩ := emitEnabled_iff.mp he
    exact inv_emitByte (inv_advance hs) hp hn hlt hb
  | finalByte => exact inv_of_idle rfl rfl rfl rfl rfl

/-- Settles O6: at power-on the block is in `IDLE` with the reset values, and no segment is on the stream. -/
theorem resetMeetsTheInvariant : Obligations.ResetMeetsTheInvariant := fun _ =>
  ⟨inv_of_idle rfl rfl rfl rfl rfl, [], rfl, rfl, rfl⟩

/-- Settles O8: the invariant holds at power-on (O6) and every step keeps it (O7), so it holds along every run; R34's lines
are its first part. -/
theorem everyReachableStateMeetsTheSequencerInvariants :
    Obligations.EveryReachableStateMeetsTheSequencerInvariants := by
  intro inputs k t h
  have ht : t.Inv := run_keeps everyStepKeepsTheInvariant (resetMeetsTheInvariant inputs).1 h
  exact ht.sequencer

/-- Settles O2: of the six events only accept leads from `IDLE` to `EMIT`, and only reset and the final byte lead back. -/
theorem phaseIsSetOnlyByAcceptFinalByteAndReset : Obligations.PhaseIsSetOnlyByAcceptFinalByteAndReset := by
  refine ⟨rfl, fun s t h => ?_⟩
  cases stepEvent_of_step h with
  | reset hr => exact ⟨fun _ he => by simp at he, fun _ _ => .inl hr⟩
  | noHandshake => exact ⟨fun hi he => by simp [hi] at he, fun he hi => by simp [he] at hi⟩
  | accept ha => exact ⟨fun _ _ => ha, fun _ hi => by simp at hi⟩
  | refuse reason ha => exact ⟨fun _ _ => ha, fun he hi => by simp [he] at hi⟩
  | emitByte => exact ⟨fun hi he => by simp [hi] at he, fun he hi => by simp [he] at hi⟩
  | finalByte hf => exact ⟨fun _ he => by simp at he, fun _ _ => .inr hf⟩

/-- An accept step that enters `EMIT` starts the frame at offset 0 (R22). -/
theorem pos_of_accept_enters_emit {s t : State} (h : step s = .next t) (ha : s.acceptEnabled = true)
    (ht : t.phase = .emit) : t.pos = 0 := by
  obtain ⟨hr, -, hp, -⟩ := acceptEnabled_iff.mp ha
  cases stepEvent_of_step h with
  | reset => rfl
  | noHandshake _ _ hna => simp [ha] at hna
  | accept => rfl
  | refuse => simp [hp] at ht
  | emitByte he => simp [State.emitEnabled, hp] at he
  | finalByte => rfl

/-- With no reset and no enabled step `pos` stays (R22, R95). -/
theorem pos_of_nothing_enabled {s t : State} (h : step s = .next t) (hr : s.ports.reset = false)
    (he : s.emitEnabled = false) (hf : s.finalEnabled = false) (ha : s.acceptEnabled = false) : t.pos = s.pos := by
  cases stepEvent_of_step h with
  | reset hr' => simp [hr] at hr'
  | noHandshake => rfl
  | accept ha' => simp [ha] at ha'
  | refuse _ ha' => simp [ha] at ha'
  | emitByte he' => simp [he] at he'
  | finalByte hf' => simp [hf] at hf'

/-- In `EMIT` the offset of the next byte is inside the frame (R22). -/
theorem pos_lt_flen {s : State} (hs : s.SequencerInv) (hp : s.phase = .emit) : ∃ n, s.flen = some n ∧ s.pos < n := by
  obtain ⟨n, hn, hlen, hpos⟩ := hs.emit_flen hp
  exact ⟨n, hn, by omega⟩

/-- Settles O3: the enabled step fixes the next `pos`, and the bound in `EMIT` is the invariant's (O7). -/
theorem posCountsTheBytesOfTheFrame : Obligations.PosCountsTheBytesOfTheFrame := by
  refine ⟨rfl, fun s t hs h => ⟨fun hr => ?_, fun he => ?_, fun hf => ?_, pos_of_accept_enters_emit h,
    pos_of_nothing_enabled h, pos_lt_flen (everyStepKeepsTheInvariant s t hs h).sequencer⟩⟩
  · cases (step_reset hr).symm.trans h
    rfl
  · obtain ⟨b, hb⟩ := latch_byte_of_emitEnabled hs he
    cases (step_of_emitEnabled he hb).symm.trans h
    rfl
  · cases (step_of_finalEnabled hf).symm.trans h
    rfl

/-- Settles O4: of the six events only the emit step and the final byte append, each the byte the port shows. -/
theorem streamIsAppendOnly : Obligations.StreamIsAppendOnly := by
  refine ⟨rfl, fun s t h => ?_⟩
  cases stepEvent_of_step h with
  | reset => exact .inl rfl
  | noHandshake => exact .inl rfl
  | accept => exact .inl rfl
  | refuse => exact .inl rfl
  | @emitByte b he hb =>
    obtain ⟨hr, -, hp, ho, -⟩ := emitEnabled_iff.mp he
    exact .inr ⟨b, (outData_of_emitEnabled he).trans hb, by simp [State.outValid, hp], ho, hr, rfl⟩
  | finalByte hf =>
    obtain ⟨hr, -, hp, ho, -⟩ := finalEnabled_iff.mp hf
    exact .inr ⟨s.crc, outData_of_finalEnabled hf, by simp [State.outValid, hp], ho, hr, rfl⟩

/-- In mid-frame the output handshake hands over the byte the port shows, and `out_last` tells the final-byte step from the
emit step (R28, R29). -/
theorem output_handshake_hands_over_outData {s : State} (hs : s.Inv) (hp : s.phase = .emit)
    (hr : s.ports.reset = false) (ho : s.ports.outReady = true) :
    ∃ b t, s.outData = some b ∧ step s = .next t ∧ t.stream = s.stream ++ [b] ∧
      (s.outLast = some true ↔ t.phase = .idle) ∧ (s.outLast = some false ↔ t.phase = .emit) := by
  rcases emitEnabled_or_finalEnabled hs hp hr ho with he | hf
  · obtain ⟨b, hb⟩ := latch_byte_of_emitEnabled hs he
    refine ⟨b, _, (outData_of_emitEnabled he).trans hb, step_of_emitEnabled he hb, rfl, ?_⟩
    simp [outLast_of_emit hp, atLastByte_of_emitEnabled he, hp]
  · refine ⟨s.crc, _, outData_of_finalEnabled hf, step_of_finalEnabled hf, rfl, ?_⟩
    simp [outLast_of_emit hp, atLastByte_of_finalEnabled hf]

/-- Settles O5: the handshake in mid-frame, and in `IDLE` the port read off the phase. -/
theorem outputPortShowsTheByteHandedOver : Obligations.OutputPortShowsTheByteHandedOver := by
  refine ⟨fun s hs hp hr ho => ⟨?_, ?_, output_handshake_hands_over_outData hs hp hr ho⟩, fun s hp => ?_⟩
  · simp [State.cmdReady, hp]
  · simp [State.outValid, hp]
  · simp [State.cmdReady, State.outValid, State.outData, State.outLast, hp]

end Sys2Proof.Machine
end

/-! ## Stream order (20_memory.md): the frame in flight, the frames of the accepted commands, and the cuts of a reset -/

section
/-! SUPPORT. Commands with a frame (R100), and the command a step accepts. -/

namespace Sys2Proof.Machine

variable {s t : State} {i : Instr} {p : List Byte}

theorem hasFrame_of_payload (hi : payloadOf i = some p) : hasFrame i = true := by
  simp [hasFrame, frameOf, hi]

theorem hasFrame_of_no_payload (hi : payloadOf i = none) : hasFrame i = false := by
  simp [hasFrame, frameOf, hi]

theorem frameBytes_of_payload (hi : payloadOf i = some p) : frameBytes i = frame (cmdByte i) p := by
  simp [frameBytes, frameOf, hi]

theorem acceptedNow_of_payload {c : Request} (ha : s.acceptEnabled = true) (hc : s.ports.cmd = some c)
    (hi : payloadOf (decodeRequest c) = some p) : s.acceptedNow = some (decodeRequest c) := by
  simp [State.acceptedNow, ha, hc, hasFrame_of_payload hi]

/-- A request that is refused is not accepted. -/
theorem acceptedNow_of_no_payload {c : Request} (hc : s.ports.cmd = some c)
    (hi : payloadOf (decodeRequest c) = none) : s.acceptedNow = none := by
  simp [State.acceptedNow, hc, hasFrame_of_no_payload hi]

theorem acceptedNow_of_not_enabled (ha : s.acceptEnabled = false) : s.acceptedNow = none := by
  simp [State.acceptedNow, ha]

/-- While a frame is in flight no command is accepted (R174). -/
theorem acceptedNow_of_emit (hp : s.phase = .emit) : s.acceptedNow = none :=
  acceptedNow_of_not_enabled (by simp [State.acceptEnabled, hp])

theorem acceptedIn_succ (k : Nat) (h : step s = .next t) :
    acceptedIn (k + 1) s = s.acceptedNow.toList ++ acceptedIn k t := by
  simp [acceptedIn, h]

/-- No reset in the next `k + 1` steps: none in the first and none in the `k` after it. -/
theorem noReset_take_succ {k : Nat} (h : noReset (s.inputs.take (k + 1)) = true) :
    s.ports.reset = false ∧ noReset (s.inputs.tail.take k) = true := by
  cases hi : s.inputs with
  | nil => simp [State.ports, hi, PortInputs.quiet, noReset]
  | cons x rest => simpa [State.ports, hi, noReset] using h

end Sys2Proof.Machine
end

section
/-! SUPPORT. The frame in flight: which frame it is, and how much of it is on the stream (R50). -/

namespace Sys2Proof.Machine

variable {s : State}

/-- The whole frame the latch stands for: its bytes, then the checksum of the covered ones. -/
def State.latchedFrame (s : State) : List Byte := s.fb ++ [crc8 (s.fb.drop 2)]

theorem latchedFrame_accept (s : State) (cmd : Byte) (p : List Byte) :
    (s.accept cmd p).latchedFrame = frame cmd p := rfl

/-- In mid-frame the latch stands for the frame of a command in the domain of R100. -/
theorem latchedFrame_of_command (hs : s.Inv) (hp : s.phase = .emit) :
    ∃ i, hasFrame i = true ∧ frameBytes i = s.latchedFrame := by
  obtain ⟨i, p, hi, hfb, -⟩ := Inv_mid_frame hs hp
  refine ⟨i, hasFrame_of_payload hi, ?_⟩
  rw [frameBytes_of_payload hi, State.latchedFrame, hfb]
  rfl

theorem pos_lt_length_latchedFrame (hs : s.Inv) (hp : s.phase = .emit) : s.pos < s.latchedFrame.length := by
  obtain ⟨i, p, -, -, -, hpos, hlen⟩ := Inv_mid_frame hs hp
  simp only [State.latchedFrame, List.length_append, List.length_singleton]
  omega

theorem inFlight_idle (hp : s.phase = .idle) : s.inFlight = [] := by
  simp [State.inFlight, hp]

theorem inFlight_emit (hp : s.phase = .emit) : s.inFlight = s.fb.take s.pos := by
  simp [State.inFlight, hp]

theorem inFlight_of_pos_zero (h0 : s.pos = 0) : s.inFlight = [] := by
  cases hp : s.phase with
  | idle => exact inFlight_idle hp
  | emit => rw [inFlight_emit hp, h0, List.take_zero]

theorem inFlight_eq_take_latchedFrame (hs : s.Inv) (hp : s.phase = .emit) :
    s.inFlight = s.latchedFrame.take s.pos := by
  obtain ⟨i, p, -, -, -, hpos, hlen⟩ := Inv_mid_frame hs hp
  rw [inFlight_emit hp, State.latchedFrame, List.take_append_of_le_length (by omega)]

@[simp] theorem inFlight_accept (s : State) (cmd : Byte) (p : List Byte) : (s.accept cmd p).inFlight = [] :=
  inFlight_of_pos_zero rfl

@[simp] theorem inFlight_resetBlock (s : State) : s.resetBlock.inFlight = [] :=
  inFlight_of_pos_zero rfl

/-- The emit step adds its byte to the part sent. -/
theorem inFlight_emitByte {b : Byte} (hp : s.phase = .emit) (hb : s.fb[s.pos]? = some b) :
    (s.emitByte b).inFlight = s.inFlight ++ [b] := by
  rw [inFlight_emit hp, inFlight_emit (s := s.emitByte b) hp, State.emitByte_fb, State.emitByte_pos, List.take_add_one, hb,
    Option.toList_some]

/-- With the final byte, the checksum register, the frame in flight is whole. -/
theorem inFlight_append_final (hs : s.Inv) (hp : s.phase = .emit) (hf : s.flen = some (s.pos + 1)) :
    s.inFlight ++ [s.crc] = s.latchedFrame := by
  obtain ⟨i, p, -, hfb, hfl, -, hlen⟩ := Inv_mid_frame hs hp
  have hpos : s.pos = p.length + 5 := by simpa using (hf.symm.trans hfl)
  have hd : s.fb.drop 2 = frameBody (cmdByte i) p := by rw [hfb]; rfl
  rw [inFlight_emit hp, List.take_of_length_le (by omega), Inv_final_crc hs hp hfb hpos, State.latchedFrame, hd]

end Sys2Proof.Machine
end

section
/-! Acceptance order (R50): what the stream holds after the commands `cs` have been accepted, kept by every step. -/

namespace Sys2Proof.Machine

variable {s t : State} {base : List Byte} {cs : List Instr}

/-- Since it held `base`, the stream has grown by the whole frames of the commands `cs`; in `EMIT` the last of `cs` is the
one in flight, and only the part of it that is sent is there. -/
def State.Carries (base : List Byte) (cs : List Instr) (s : State) : Prop :=
  ∃ whole : List Instr, s.stream = base ++ whole.flatMap frameBytes ++ s.inFlight ∧ (s.phase = .idle → cs = whole) ∧
    (s.phase = .emit → ∃ c, cs = whole ++ [c] ∧ frameBytes c = s.latchedFrame)

/-- In `IDLE` the frames of all the commands are whole. -/
theorem carries_of_idle (hp : s.phase = .idle) (h : s.stream = base ++ cs.flatMap frameBytes) : s.Carries base cs :=
  ⟨cs, by simp [h, inFlight_idle hp], fun _ => rfl, fun he => by simp [hp] at he⟩

theorem stream_of_carries_idle (h : s.Carries base cs) (hp : s.phase = .idle) :
    s.stream = base ++ cs.flatMap frameBytes := by
  obtain ⟨whole, hst, hidle, -⟩ := h
  rw [hst, hidle hp, inFlight_idle hp, List.append_nil]

theorem stream_of_carries_emit (h : s.Carries base cs) (hp : s.phase = .emit) :
    ∃ whole c, cs = whole ++ [c] ∧ frameBytes c = s.latchedFrame ∧
      s.stream = base ++ whole.flatMap frameBytes ++ s.inFlight := by
  obtain ⟨whole, hst, -, hemit⟩ := h
  obtain ⟨c, hcs, hc⟩ := hemit hp
  exact ⟨whole, c, hcs, hc, hst⟩

/-- The accept step in `IDLE` puts a new command in flight, with no byte of it sent. -/
theorem carries_accept {i : Instr} {p : List Byte} (h : s.Carries base cs) (hp : s.phase = .idle)
    (hi : payloadOf i = some p) : (s.accept (cmdByte i) p).Carries base (cs ++ [i]) :=
  ⟨cs, by simp [stream_of_carries_idle h hp], fun he => by simp at he,
    fun _ => ⟨i, rfl, (frameBytes_of_payload hi).trans (latchedFrame_accept s _ p).symm⟩⟩

/-- The emit step sends one more byte of the command in flight. -/
theorem carries_emitByte {b : Byte} (h : s.Carries base cs) (hp : s.phase = .emit) (hb : s.fb[s.pos]? = some b) :
    (s.emitByte b).Carries base cs := by
  obtain ⟨whole, hst, hidle, hemit⟩ := h
  refine ⟨whole, ?_, hidle, hemit⟩
  rw [State.emitByte_stream, hst, inFlight_emitByte hp hb, List.append_assoc _ s.inFlight]

/-- The final byte makes the frame in flight whole. -/
theorem carries_finalByte (hs : s.Inv) (h : s.Carries base cs) (hp : s.phase = .emit)
    (hf : s.flen = some (s.pos + 1)) : s.finalByte.Carries base cs := by
  obtain ⟨whole, c, rfl, hc, hst⟩ := stream_of_carries_emit h hp
  refine carries_of_idle rfl ?_
  calc s.finalByte.stream = base ++ whole.flatMap frameBytes ++ (s.inFlight ++ [s.crc]) := by simp [hst]
    _ = base ++ whole.flatMap frameBytes ++ frameBytes c := by rw [inFlight_append_final hs hp hf, hc]
    _ = base ++ (whole ++ [c]).flatMap frameBytes := by simp

/-- A step without reset carries the command it accepts, if it accepts one, behind those before. -/
theorem carries_step (hs : s.Inv) (hr : s.ports.reset = false) (hc : s.Carries base cs) (h : step s = .next t) :
    t.Carries base (cs ++ s.acceptedNow.toList) := by
  have hadv : s.advance.Carries base cs := hc
  cases stepEvent_of_step h with
  | reset hr' => simp [hr] at hr'
  | noHandshake _ _ ha => simpa [acceptedNow_of_not_enabled ha] using hadv
  | accept ha hcmd hi =>
    obtain ⟨-, -, hp, -⟩ := acceptEnabled_iff.mp ha
    simpa [acceptedNow_of_payload ha hcmd hi] using carries_accept hadv hp hi
  | refuse reason ha hcmd hi =>
    have hmark : (s.advance.refuse reason).Carries base cs := hc
    simpa [acceptedNow_of_no_payload hcmd hi] using hmark
  | emitByte he hb =>
    obtain ⟨-, -, hp, -⟩ := emitEnabled_iff.mp he
    simpa [acceptedNow_of_emit hp] using carries_emitByte hadv hp hb
  | finalByte hf =>
    obtain ⟨-, -, hp, -, hlast⟩ := finalEnabled_iff.mp hf
    simpa [acceptedNow_of_emit hp] using carries_finalByte (inv_advance hs) hadv hp hlast

/-- Along a run without reset the accepted commands pile up in the order of their handshakes. -/
theorem carries_run {k : Nat} (hs : s.Inv) (hn : noReset (s.inputs.take k) = true) (hc : s.Carries base cs)
    (h : run k s = .next t) : t.Carries base (cs ++ acceptedIn k s) := by
  induction k generalizing s cs with
  | zero => cases h; simpa [acceptedIn] using hc
  | succ k ih =>
    obtain ⟨u, hu, ht⟩ := run_succ_next h
    obtain ⟨hr, hn'⟩ := noReset_take_succ hn
    rw [← step_inputs hu] at hn'
    rw [acceptedIn_succ k hu, ← List.append_assoc]
    exact ih (everyStepKeepsTheInvariant s u hs hu) hn' (carries_step hs hr hc hu) ht

/-- Settles O9: the run carries its accepted commands (`carries_run`), and in mid-frame the invariant (O7) ties the bytes
sent to the frame of the last one. -/
theorem streamIsTheFramesInAcceptanceOrder : Obligations.StreamIsTheFramesInAcceptanceOrder := by
  intro s t k hs hp hn h
  have hc : t.Carries s.stream ([] ++ acceptedIn k s) := carries_run hs hn (carries_of_idle hp (by simp)) h
  refine ⟨stream_of_carries_idle hc, fun ht => ?_⟩
  obtain ⟨whole, c, hcs, hfr, hst⟩ := stream_of_carries_emit hc ht
  have htInv : t.Inv := run_keeps everyStepKeepsTheInvariant hs h
  refine ⟨whole, c, hcs, ?_⟩
  rw [hst, inFlight_eq_take_latchedFrame htInv ht, hfr]

end Sys2Proof.Machine
end

section
/-! Framing (R50 with R171): a reset in mid-frame leaves the frame in flight as a cut segment, the final byte as a whole
one. -/

namespace Sys2Proof.Machine

variable {s t : State}

/-- The events of segments laid one after another. -/
theorem cutEvents_append (start : Nat) (xs ys : List Segment) :
    cutEvents start (xs ++ ys) = cutEvents start xs ++ cutEvents (start + (xs.flatMap Segment.bytes).length) ys := by
  induction xs generalizing start with
  | nil => rfl
  | cons x xs ih => cases x <;> simp [cutEvents, ih, Nat.add_assoc]

/-- A stream of segments with one more behind them, and with the event of that one, is framed. -/
theorem framed_of_append_segment {segments : List Segment} (x : Segment) (hok : segments.all Segment.ok = true)
    (hx : x.ok = true) (hidle : t.phase = .idle) (hst : t.stream = segments.flatMap Segment.bytes ++ x.bytes)
    (htr : t.truncations = cutEvents 0 segments ++ cutEvents (segments.flatMap Segment.bytes).length [x]) :
    t.Framed :=
  ⟨segments ++ [x], by simp [List.all_append, hok, hx], by simp [hst, inFlight_idle hidle],
    by rw [htr, cutEvents_append, Nat.zero_add]⟩

/-- Reset keeps the framing: the bytes sent of a frame in flight become a cut segment, with its event (R171). -/
theorem framed_resetBlock (hs : s.Inv) (hf : s.Framed) : s.resetBlock.Framed := by
  obtain ⟨segments, hok, hst, htr⟩ := hf
  by_cases h0 : s.pos = 0
  · exact ⟨segments, hok, by simpa [inFlight_of_pos_zero h0] using hst, by simp [truncationAt, h0, htr]⟩
  · have hp : s.phase = .emit := by
      cases hp : s.phase with
      | idle => exact absurd (hs.sequencer.idle_zero hp).1 h0
      | emit => rfl
    obtain ⟨i, hi, hfr⟩ := latchedFrame_of_command hs hp
    have hpos : 0 < s.pos := Nat.pos_of_ne_zero h0
    have hlt : s.pos < (frameBytes i).length := hfr ▸ pos_lt_length_latchedFrame hs hp
    have hbytes : (Segment.cut i s.pos).bytes = s.inFlight := by
      rw [inFlight_eq_take_latchedFrame hs hp, ← hfr, Segment.bytes]
    refine framed_of_append_segment (.cut i s.pos) hok ?_ rfl ?_ ?_
    · simp [Segment.ok, hi, Nat.succ_le_of_lt hpos, Nat.succ_le_of_lt hlt]
    · rw [hbytes]; exact hst
    · rw [State.resetBlock_truncations, truncationAt, if_pos hpos, htr, hst, List.length_append, ← hbytes]
      rfl

/-- The final byte keeps the framing: the frame in flight becomes a whole segment. -/
theorem framed_finalByte (hs : s.Inv) (hf : s.Framed) (hp : s.phase = .emit) (hlast : s.flen = some (s.pos + 1)) :
    s.finalByte.Framed := by
  obtain ⟨segments, hok, hst, htr⟩ := hf
  obtain ⟨i, hi, hfr⟩ := latchedFrame_of_command hs hp
  refine framed_of_append_segment (.whole i) hok hi rfl ?_ (by simpa [cutEvents] using htr)
  rw [State.finalByte_stream, hst, List.append_assoc, inFlight_append_final hs hp hlast, ← hfr, Segment.bytes]

/-- The emit step keeps the framing: the part sent of the frame in flight grows with the stream. -/
theorem framed_emitByte {b : Byte} (hf : s.Framed) (hp : s.phase = .emit) (hb : s.fb[s.pos]? = some b) :
    (s.emitByte b).Framed := by
  obtain ⟨segments, hok, hst, htr⟩ := hf
  exact ⟨segments, hok, by simp [hst, inFlight_emitByte hp hb], htr⟩

/-- The accept step in `IDLE` keeps the framing: no byte of the new frame is sent. -/
theorem framed_accept (hf : s.Framed) (hp : s.phase = .idle) (cmd : Byte) (p : List Byte) :
    (s.accept cmd p).Framed := by
  obtain ⟨segments, hok, hst, htr⟩ := hf
  exact ⟨segments, hok, by simpa [inFlight_idle hp] using hst, htr⟩

/-- Settles O49: each event of a step keeps the framing. -/
theorem everyStepKeepsTheStreamFramed : Obligations.EveryStepKeepsTheStreamFramed := by
  intro s t hs hf h
  have hadv : s.advance.Framed := hf
  cases stepEvent_of_step h with
  | reset => exact framed_resetBlock (inv_advance hs) hadv
  | noHandshake => exact hadv
  | accept ha =>
    obtain ⟨-, -, hp, -⟩ := acceptEnabled_iff.mp ha
    exact framed_accept hadv hp _ _
  | refuse => exact hadv
  | emitByte he hb =>
    obtain ⟨-, -, hp, -⟩ := emitEnabled_iff.mp he
    exact framed_emitByte hadv hp hb
  | finalByte hfin =>
    obtain ⟨-, -, hp, -, hlast⟩ := finalEnabled_iff.mp hfin
    exact framed_finalByte (inv_advance hs) hadv hp hlast

end Sys2Proof.Machine
end

/-! ## Frames and encodings (30_encoding.md): the layout of a frame, its reader, and the code map -/

section
/-! SUPPORT. The pieces of a frame (R60), and the frame of each command (R65, R100). -/

namespace Sys2Proof.Machine

/-- The bytes before the payload, and the checksum behind it (R90). -/
theorem frame_eq_cons (cmd : Byte) (p : List Byte) :
    frame cmd p = marker0 :: marker1 :: cmd :: BitVec.ofNat 8 p.length :: BitVec.ofNat 8 (p.length / 256) ::
      (p ++ [crc8 (frameBody cmd p)]) := rfl

/-- The frame of a payload of known length, the length field computed from it (R63). -/
theorem frame_of_length {cmd : Byte} {p : List Byte} {n : Nat} (h : p.length = n) :
    frame cmd p = [marker0, marker1] ++ ([cmd] ++ le16 n ++ p) ++ [crc8 ([cmd] ++ le16 n ++ p)] := by
  subst h; rfl

theorem pixelPayload_length (index r g b : Nat) : (pixelPayload index r g b).length = 5 := rfl

/-- From offset 5 a frame is its payload and its checksum. -/
theorem frame_drop_five (cmd : Byte) (p : List Byte) : (frame cmd p).drop 5 = p ++ [crc8 (frameBody cmd p)] := rfl

/-- The covered bytes are the ones between the markers and the checksum (R83). -/
theorem frame_covered (cmd : Byte) (p : List Byte) : ((frame cmd p).drop 2).take (p.length + 3) = frameBody cmd p :=
  List.take_left' (frameBody_length cmd p)

theorem frame_payload (cmd : Byte) (p : List Byte) : ((frame cmd p).drop 5).take p.length = p :=
  List.take_left

theorem frame_getElem?_payload (cmd : Byte) (p : List Byte) {k : Nat} (hk : k < p.length) :
    (frame cmd p)[5 + k]? = p[k]? := by
  rw [← List.getElem?_drop, frame_drop_five, List.getElem?_append_left hk]

theorem frame_getElem?_checksum (cmd : Byte) (p : List Byte) :
    (frame cmd p)[5 + p.length]? = some (crc8 (frameBody cmd p)) := by
  rw [← List.getElem?_drop, frame_drop_five, List.getElem?_concat_length]

theorem frame_getLast? (cmd : Byte) (p : List Byte) : (frame cmd p).getLast? = some (crc8 (frameBody cmd p)) :=
  List.getLast?_concat

theorem frameOf_brightness (value : Int) : frameOf (.brightness value) = some (frame codeBrightness [clamp8 value]) :=
  rfl

theorem frameOf_setPixel {index : Nat} (r g b : Nat) (h : index ≤ maxIndex) :
    frameOf (.setPixel index r g b) = some (frame codeSetPixel (pixelPayload index r g b)) := by
  simp [frameOf, payloadOf, h, cmdByte]

/-- A command with a frame has a payload (R100). -/
theorem payload_of_hasFrame {i : Instr} (h : hasFrame i = true) : ∃ p, payloadOf i = some p := by
  obtain ⟨f, hf⟩ := Option.isSome_iff_exists.mp h
  obtain ⟨p, hp, -⟩ := frameOf_eq_some hf
  exact ⟨p, hp⟩

/-- The payload of an accepted command fits the length field. -/
theorem payloadOf_length_le {i : Instr} {p : List Byte} (h : payloadOf i = some p) : p.length ≤ 65535 := by
  have hlen := payloadOf_length h
  omega

end Sys2Proof.Machine
end

section
/-! SUPPORT. The reader of R69 on the frames of R90. -/

namespace Sys2Proof.Machine

/-- The two bytes of a 16-bit value, put together as R69's reader does, are the value. -/
theorem le16_bytes_or {n : Nat} (h : n ≤ 65535) :
    (BitVec.ofNat 8 n).toNat ||| (BitVec.ofNat 8 (n / 256)).toNat <<< 8 = n := by
  have hlo : n % 2 ^ 8 < 2 ^ 8 := Nat.mod_lt _ (by decide)
  rw [BitVec.toNat_ofNat, BitVec.toNat_ofNat, Nat.or_comm, ← Nat.shiftLeft_add_eq_or_of_lt hlo, Nat.shiftLeft_eq]
  omega

/-- At the start of a frame the reader finds the frame's length, whatever follows. -/
theorem frameLengthAt_frame (cmd : Byte) {p : List Byte} (rest : List Byte) (h : p.length ≤ 65535) :
    frameLengthAt (frame cmd p ++ rest) = some (frame cmd p).length := by
  rw [frame_length, Nat.add_comm, frame_eq_cons]
  simp only [List.cons_append, frameLengthAt, le16_bytes_or h]

/-- At the start of a frame the reader cuts off exactly the frame. -/
theorem readFrame_frame (cmd : Byte) {p : List Byte} (rest : List Byte) (h : p.length ≤ 65535) :
    readFrame (frame cmd p ++ rest) = some (frame cmd p, rest) := by
  have hle : (frame cmd p).length ≤ (frame cmd p ++ rest).length := by simp
  simp only [readFrame, frameLengthAt_frame cmd rest h, if_pos hle, List.take_left, List.drop_left]

/-- The reader at the start of an accepted command's frame. -/
theorem readFrame_frameBytes {i : Instr} (hi : hasFrame i = true) (rest : List Byte) :
    readFrame (frameBytes i ++ rest) = some (frameBytes i, rest) := by
  obtain ⟨p, hp⟩ := payload_of_hasFrame hi
  rw [frameBytes_of_payload hp, readFrame_frame _ _ (payloadOf_length_le hp)]

theorem readFrames_nil (fuel : Nat) : readFrames fuel [] = [] := by
  cases fuel <;> rfl

theorem readFrames_succ {s f rest : List Byte} (fuel : Nat) (h : readFrame s = some (f, rest)) :
    readFrames (fuel + 1) s = f :: readFrames fuel rest := by
  simp only [readFrames, h]

end Sys2Proof.Machine
end

section
/-! The obligations on frames and encodings. -/

namespace Sys2Proof.Machine

/-- Settles O10: the bytes before the payload by `frame_eq_cons`, the length field as far as it counts, and the payload
and the checksum by what stands from offset 5. -/
theorem frameLayoutByOffset : Obligations.FrameLayoutByOffset := by
  intro cmd p h
  refine ⟨frame_length cmd p, rfl, rfl, rfl, ?_, ?_, fun k hk => frame_getElem?_payload cmd p hk, ?_⟩
  · simp [frame_eq_cons]
  · have hhi : p.length / 256 % 256 = p.length / 256 := Nat.mod_eq_of_lt (by omega)
    simp [frame_eq_cons, hhi]
  · rw [frame_covered, frame_getElem?_checksum]

/-- Settles O15: `readFrame_frame` for the command's payload, and its length. -/
theorem readerFindsTheFrameEnd : Obligations.ReaderFindsTheFrameEnd := by
  intro i f rest h
  obtain ⟨p, hp, rfl⟩ := frameOf_eq_some h
  refine ⟨readFrame_frame _ _ (payloadOf_length_le hp), ?_⟩
  cases i with
  | showCmd => cases hp; rfl
  | setPixel index r g b =>
    obtain ⟨-, hp⟩ := Option.ite_none_right_eq_some.mp hp
    cases hp
    rfl
  | brightness value => cases hp; rfl
  | reserved code => cases hp

/-- Settles O16, by induction on the commands: the reader cuts off the first frame, and what is left is the stream of
the others. -/
theorem streamOfFramesSplitsUniquely : Obligations.StreamOfFramesSplitsUniquely := by
  intro is
  induction is with
  | nil => exact fun fuel _ _ => readFrames_nil fuel
  | cons i is ih =>
    intro fuel hall hlen
    obtain ⟨hi, his⟩ := List.forall_mem_cons.mp hall
    cases fuel with
    | zero => simp at hlen
    | succ fuel =>
      rw [List.flatMap_cons, readFrames_succ fuel (readFrame_frameBytes hi _),
        ih fuel his (Nat.le_of_succ_le_succ hlen), List.map_cons]

/-- Settles O11: each command's frame, with its payload's length written out; SHOW's checksum is computed. -/
theorem threeFrameFormats : Obligations.ThreeFrameFormats := by
  refine ⟨fun index r g b h => ?_, fun value => ?_, ?_⟩
  · rw [frameOf_setPixel r g b h, frame_of_length (pixelPayload_length index r g b)]
    rfl
  · rw [frameOf_brightness, frame_of_length (List.length_singleton)]
    rfl
  · decide +kernel

/-- Settles O12: the tests of the code map one after another; the three codes differ. -/
theorem codeSelectsTheCommand : Obligations.CodeSelectsTheCommand := by
  intro c
  refine ⟨fun h => ?_, fun h => ?_, fun h => ?_, fun hShow hPixel hBright => ?_⟩
  · exact if_pos h
  · simp [decodeRequest, codeShow, codeSetPixel, h]
  · simp [decodeRequest, codeShow, codeSetPixel, codeBrightness, h]
  · simp [decodeRequest, codeShow, codeSetPixel, codeBrightness, hShow, hPixel, hBright]

/-- Settles O17: the payload and the checksum stand in the frame as they are; the index 0x5AA5 is at offsets 5 and 6,
and the two checksums are computed. -/
theorem markersAreNotEscaped : Obligations.MarkersAreNotEscaped := by
  refine ⟨fun cmd p => ⟨frame_length cmd p, frame_payload cmd p, frame_getLast? cmd p⟩, fun r g b => ?_, ?_, ?_⟩
  · exact ⟨_, frameOf_setPixel r g b (by decide), rfl, rfl⟩
  · decide +kernel
  · decide +kernel

end Sys2Proof.Machine
end

/-! ## Checksum and framing (41_checksum_and_framing.md): the CRC's laws, the byte operands, and a frame's way to the stream -/

section
/-! SUPPORT. The CRC register as a linear and injective function (R81, R84, R85). -/

namespace Sys2Proof.Machine

/-- The register and the byte enter the loop as their exclusive OR alone (R84). -/
theorem crc8Step_eq_zero_xor (c b : Byte) : crc8Step c b = crc8Step 0x00#8 (c ^^^ b) := by
  simp [crc8Step]

/-- The printed table, entry by entry, is the step from the register 0x00. -/
theorem crcTable_getElem? : ∀ x : Byte, crcTable[x.toNat]? = some (crc8Step 0x00#8 x) := by
  decide +kernel

/-- The step is linear over exclusive OR of registers and of bytes. -/
theorem crc8Step_xor (c d x y : Byte) : crc8Step (c ^^^ d) (x ^^^ y) = crc8Step c x ^^^ crc8Step d y := by
  have hcomm : c ^^^ d ^^^ (x ^^^ y) = (c ^^^ x) ^^^ (d ^^^ y) := by ac_rfl
  rw [crc8Step, hcomm, crcShift_repeat_xor, ← crc8Step, ← crc8Step]

/-- A zero byte leaves the initial register as it is. -/
@[simp] theorem crc8Step_init_zero : crc8Step crcInit 0x00#8 = crcInit := rfl

/-- The fold over more bytes is linear in its starting registers and its bytes. -/
theorem foldl_crc8Step_xor (s t : List Byte) (h : s.length = t.length) (c d : Byte) :
    (List.zipWith (· ^^^ ·) s t).foldl crc8Step (c ^^^ d) = s.foldl crc8Step c ^^^ t.foldl crc8Step d := by
  induction s generalizing t c d with
  | nil =>
    obtain rfl := List.eq_nil_of_length_eq_zero h.symm
    rfl
  | cons x s ih =>
    cases t with
    | nil => simp at h
    | cons y t =>
      simp only [List.zipWith_cons_cons, List.foldl_cons, crc8Step_xor]
      exact ih t (Nat.succ.inj h) _ _

/-- Two registers that differ still differ after any further bytes, the same for both. -/
theorem foldl_crc8Step_injective (s : List Byte) : Function.Injective (fun c => s.foldl crc8Step c) := by
  induction s with
  | nil => exact Function.injective_id
  | cons x s ih => exact fun c d h => (BitVec.xor_left_inj x).mp (crc8Step_injective _ _ _ _ (ih h))

end Sys2Proof.Machine
end

section
/-! SUPPORT. The byte operands (R86 to R88) as arithmetic. -/

namespace Sys2Proof.Machine

theorem ofNat_mod_byte (n : Nat) : BitVec.ofNat 8 (n % 256) = BitVec.ofNat 8 n :=
  BitVec.eq_of_toNat_eq (by simp)

/-- The channel mask as a remainder. -/
theorem mask8_eq_mod (v : Nat) : mask8 v = BitVec.ofNat 8 (v % 256) := by
  rw [mask8, Nat.and_two_pow_sub_one_eq_mod v 8]

theorem mask8_toNat (v : Nat) : (mask8 v).toNat = v % 256 := by
  simp [mask8_eq_mod]

theorem clamp8_of_neg {v : Int} (h : v < 0) : clamp8 v = 0x00#8 := if_pos h

theorem clamp8_of_gt {v : Int} (h : v > 255) : clamp8 v = 0xFF#8 := by
  rw [clamp8, if_neg (by omega), if_pos h]

/-- In range the clamp is the value itself. -/
theorem clamp8_of_byte {v : Int} (h0 : 0 ≤ v) (h255 : v ≤ 255) : clamp8 v = BitVec.ofNat 8 v.toNat := by
  obtain ⟨n, rfl⟩ := Int.eq_ofNat_of_zero_le h0
  rw [clamp8, if_neg (by omega), if_neg (by omega), Int.toNat_natCast, BitVec.ofInt_natCast]

/-- The clamp as the case distinction of R88. -/
theorem clamp8_eq (v : Int) :
    clamp8 v = if v < 0 then 0x00#8 else if v > 255 then 0xFF#8 else BitVec.ofNat 8 v.toNat := by
  split
  · exact clamp8_of_neg ‹_›
  · split
    · exact clamp8_of_gt ‹_›
    · exact clamp8_of_byte (by omega) (by omega)

end Sys2Proof.Machine
end

section
/-! SUPPORT. What the accept step latches, and where it is not enabled (R91, R95). -/

namespace Sys2Proof.Machine

/-- The writes of R91 with the length of the payload written out. -/
theorem accept_of_length (s : State) (cmd : Byte) {p : List Byte} {n : Nat} (h : p.length = n) :
    s.accept cmd p = { s with
      phase := .emit, pos := 0, flen := some (n + 6), crc := 0x00#8,
      fb := [marker0, marker1] ++ ([cmd] ++ le16 n ++ p) } := by
  subst h
  rfl

/-- In mid-frame no request is accepted (R95). -/
theorem not_acceptEnabled_of_emit {s : State} (hp : s.phase = .emit) : ¬ s.acceptEnabled = true := fun ha => by
  obtain ⟨-, -, hidle, -⟩ := acceptEnabled_iff.mp ha
  simp [hp] at hidle

end Sys2Proof.Machine
end

section
/-! SUPPORT. A frame on its way to the stream: the bytes sent and the bytes still to come, along a run without reset. -/

namespace Sys2Proof.Machine

variable {s t u : State} {m n : Nat}

/-- From `s` to `t` the first `n` bytes still to come went to the end of the stream, and the block stays without a refused
mark and without a new truncation. -/
structure State.Sends (n : Nat) (s t : State) : Prop where
  inv : t.Inv
  not_refused : t.refused = none
  truncations : t.truncations = s.truncations
  bytes : t.stream ++ t.remaining = s.stream ++ s.remaining
  count : n + t.remaining.length = s.remaining.length

theorem sends_trans (hst : State.Sends m s t) (htu : State.Sends n t u) : State.Sends (m + n) s u where
  inv := htu.inv
  not_refused := htu.not_refused
  truncations := htu.truncations.trans hst.truncations
  bytes := htu.bytes.trans hst.bytes
  count := by rw [Nat.add_assoc, htu.count, hst.count]

/-- One step in mid-frame sends the one byte the sink takes, or none. -/
theorem step_sends {x : PortInputs} {rest : List PortInputs} (hs : s.Inv) (hp : s.phase = .emit)
    (hin : s.inputs = x :: rest) (hx : x.reset = false) :
    ∃ t, step s = .next t ∧ State.Sends (readyCount [x]) s t ∧ t.inputs = rest := by
  have hm := hs.emit_not_refused hp
  obtain rfl := ports_cons hin
  cases ho : s.ports.outReady with
  | false =>
    refine ⟨s.advance, step_hold hx hm hp ho, ⟨inv_advance hs, hm, rfl, rfl, ?_⟩, by simp [hin]⟩
    simp [readyCount, ho, State.remaining]
  | true =>
    obtain ⟨t, b, ht, hst, hrem, htr, htm⟩ := step_moves_one_byte hs hp hx ho
    refine ⟨t, ht, ⟨everyStepKeepsTheInvariant s t hs ht, htm, htr, by simp [hst, hrem], ?_⟩,
      by simp [step_inputs ht, hin]⟩
    simp [readyCount, ho, hrem, Nat.add_comm]

/-- Where bytes are still to come, a frame is in flight. -/
theorem emit_of_remaining_pos (h : 0 < s.remaining.length) : s.phase = .emit := by
  cases hp : s.phase with
  | idle => simp [remaining_idle hp] at h
  | emit => rfl

theorem readyCount_cons (x : PortInputs) (xs : List PortInputs) :
    readyCount (x :: xs) = readyCount [x] + readyCount xs := by
  simp [readyCount, List.countP_cons, Nat.add_comm]

/-- The last input, in which the sink takes, counts. -/
theorem readyCount_concat_pos {last : PortInputs} (hlast : last.outReady = true) (xs : List PortInputs) :
    0 < readyCount (xs ++ [last]) := by
  simp [readyCount, hlast]

/-- The next input of a run without reset, and the inputs after it. -/
theorem noReset_cons {x : PortInputs} {xs : List PortInputs} (h : noReset (x :: xs) = true) :
    x.reset = false ∧ noReset xs = true := by
  simpa [noReset] using h

/-- A run without reset that ends with the sink taking a byte of the frame in flight: each byte taken is sent, whatever the
stalls and the requests presented in between. -/
theorem run_sends {last : PortInputs} {rest : List PortInputs} (hlast : last.outReady = true)
    (stalls : List PortInputs) (hs : s.Inv) (hin : s.inputs = stalls ++ last :: rest)
    (hn : noReset (stalls ++ [last]) = true) (hc : readyCount (stalls ++ [last]) ≤ s.remaining.length) :
    ∃ u, run (stalls.length + 1) s = .next u ∧ State.Sends (readyCount (stalls ++ [last])) s u ∧ u.inputs = rest := by
  have hp : s.phase = .emit := emit_of_remaining_pos (Nat.lt_of_lt_of_le (readyCount_concat_pos hlast stalls) hc)
  induction stalls generalizing s with
  | nil =>
    obtain ⟨hlastReset, -⟩ := noReset_cons hn
    obtain ⟨t, ht, hsend, hrest⟩ := step_sends hs hp hin hlastReset
    exact ⟨t, run_succ 0 ht, hsend, hrest⟩
  | cons x stalls ih =>
    obtain ⟨hx, hstalls⟩ := noReset_cons hn
    obtain ⟨t, ht, hsend, htin⟩ := step_sends hs hp hin hx
    rw [List.cons_append, readyCount_cons] at hc ⊢
    have htc : readyCount (stalls ++ [last]) ≤ t.remaining.length :=
      Nat.le_of_add_le_add_left (hc.trans_eq hsend.count.symm)
    have htp : t.phase = .emit := emit_of_remaining_pos (Nat.lt_of_lt_of_le (readyCount_concat_pos hlast stalls) htc)
    obtain ⟨u, hu, hsend', hrest⟩ := ih hsend.inv htin hstalls htc htp
    exact ⟨u, (run_succ _ ht).trans hu, sends_trans hsend hsend', hrest⟩

/-- In `IDLE` the invariant leaves open only the stream, the mark, the truncations and the inputs. -/
theorem eq_of_idle (hs : s.Inv) (ht : t.Inv) (hps : s.phase = .idle) (hpt : t.phase = .idle)
    (hm : t.refused = s.refused) (htr : t.truncations = s.truncations) :
    t = { s with stream := t.stream, inputs := t.inputs } := by
  obtain ⟨hspos, hscrc⟩ := hs.sequencer.idle_zero hps
  obtain ⟨hsfl, hsfb⟩ := hs.idle_no_value hps
  obtain ⟨htpos, htcrc⟩ := ht.sequencer.idle_zero hpt
  obtain ⟨htfl, htfb⟩ := ht.idle_no_value hpt
  cases s
  cases t
  simp_all

/-- Settles O26: the accept step makes the frame the bytes still to come; a run in which the sink takes as many sends them
all, and in `IDLE` the invariant fixes the rest of the block. -/
theorem everyAcceptedCommandDeliversItsFrame : Obligations.EveryAcceptedCommandDeliversItsFrame := by
  intro i f hf s hs hp hm
  obtain ⟨p, hi, rfl⟩ := frameOf_eq_some hf
  refine ⟨_, exec_of_payload hi hp hm, rfl, rfl, rfl, fun stalls last rest hin hn hlast hc => ?_⟩
  have hrem := remaining_accept s (cmdByte i) p
  obtain ⟨u, hu, hsend, hrest⟩ := run_sends hlast stalls (inv_of_accept hi hm) hin hn (by rw [hc, hrem])
  have hcount : (frame (cmdByte i) p).length + u.remaining.length = (frame (cmdByte i) p).length := by
    simpa [hc, hrem] using hsend.count
  have hnil : u.remaining = [] := List.eq_nil_of_length_eq_zero (Nat.add_eq_left.mp hcount)
  have hst : u.stream = s.stream ++ frame (cmdByte i) p := by
    simpa [hnil, hrem] using hsend.bytes
  refine ⟨u, hu, ?_, hrest⟩
  rw [← hst]
  exact eq_of_idle hs hsend.inv hp ((remaining_eq_nil hsend.inv).mp hnil) (hsend.not_refused.trans hm.symm)
    hsend.truncations

end Sys2Proof.Machine
end

section
/-! The obligations on checksum, operands and steps. -/

namespace Sys2Proof.Machine

/-- Settles O19: `crcTable_getElem?`, at the exclusive OR of register and byte. -/
theorem crcStepEqualsTheTable : Obligations.CrcStepEqualsTheTable := by
  refine ⟨by decide +kernel, fun c b => ⟨?_, crc8Step_eq_zero_xor c b⟩⟩
  rw [crcTable_getElem?, ← crc8Step_eq_zero_xor]

/-- Settles O20: the fold is linear, and each further step keeps two different registers different. -/
theorem crcLaws : Obligations.CrcLaws := by
  refine ⟨fun s t h => congrArg crc8 h, fun s t h => ?_, fun s t x y hxy h => hxy ?_, crc8_append_byte⟩
  · exact foldl_crc8Step_xor s t h crcInit crcInit
  · simp only [crc8, List.foldl_append, List.foldl_cons] at h
    have hstep : crc8Step (s.foldl crc8Step crcInit) x = crc8Step (s.foldl crc8Step crcInit) y :=
      foldl_crc8Step_injective t h
    exact (BitVec.xor_right_inj _).mp (crc8Step_injective _ _ _ _ hstep)

/-- Settles O18: a leading zero byte leaves the initial register as it is; the worked registers are computed. -/
theorem crcIsTheFoldOfItsStep : Obligations.CrcIsTheFoldOfItsStep := by
  have hlead : ∀ s : List Byte, crc8 ([0x00#8] ++ s) = crc8 s := fun s => by simp [crc8]
  refine ⟨crc8_nil, crc8_append_byte, hlead, fun n => ?_, by decide +kernel⟩
  induction n with
  | zero => exact crc8_nil
  | succ n ih => exact (hlead _).trans ih

/-- Settles O21: the high byte of a 16-bit value is its quotient by 256. -/
theorem littleEndianPacking : Obligations.LittleEndianPacking := by
  refine ⟨fun n h => ⟨_, _, rfl, BitVec.toNat_ofNat n 8, ?_⟩, rfl, rfl⟩
  rw [BitVec.toNat_ofNat, Nat.mod_eq_of_lt (by omega)]

/-- Settles O22: the mask is the remainder by 256. -/
theorem channelMaskWraps : Obligations.ChannelMaskWraps :=
  ⟨mask8_toNat, fun v h => (mask8_toNat v).trans (Nat.mod_eq_of_lt (by omega)), rfl, rfl, rfl⟩

/-- Settles O23: the three ranges of the clamp; a port of 9 bits or more reaches at least from -256 to 255. -/
theorem brightnessClampSaturates : Obligations.BrightnessClampSaturates := by
  refine ⟨fun v => ⟨clamp8_of_neg, clamp8_of_gt, fun h0 h255 => ?_⟩, fun w hw => ?_, rfl, rfl⟩
  · rw [clamp8_of_byte h0 h255, BitVec.toNat_ofNat]
    omega
  · have hpow : (2 : Int) ^ 8 ≤ 2 ^ (w - 1) := pow_le_pow_right₀ (by decide) (by omega)
    refine ⟨clamp8_of_neg (by omega), ?_⟩
    rcases hpow.eq_or_lt with heq | hlt
    · rw [← heq]
      rfl
    · exact clamp8_of_gt (by omega)

/-- Settles O24: the emit step is enabled, and its writes are R92's. -/
theorem emitStepHandsOverOneLatchedByte : Obligations.EmitStepHandsOverOneLatchedByte := by
  intro s n b hp hm hr ho hn hlt hb
  have he : s.emitEnabled = true := emitEnabled_iff.mpr ⟨hr, hm, hp, ho, n, hn, by omega⟩
  exact ⟨_, step_of_emitEnabled he hb, rfl⟩

/-- Settles O25: the final-byte step is enabled, and its writes are R93's. -/
theorem finalByteStepHandsOverTheChecksum : Obligations.FinalByteStepHandsOverTheChecksum := by
  intro s hp hm hr ho hlast
  have hf : s.finalEnabled = true := finalEnabled_iff.mpr ⟨hr, hm, hp, ho, hlast⟩
  refine ⟨_, step_of_finalEnabled hf, ?_, rfl, rfl, rfl, rfl, rfl, hm, rfl⟩
  rw [outLast_of_emit hp, atLastByte_of_finalEnabled hf]

/-- Settles O27: the phase tells accept from the output steps and `pos = flen-1` the output steps from each other; the cases
with no step are `step_idle`, `step_hold` and `step_marked`. -/
theorem atMostOneStepIsEnabled : Obligations.AtMostOneStepIsEnabled := by
  refine fun s => ⟨fun ⟨ha, he⟩ => ?_, fun ⟨ha, hf⟩ => ?_, fun ⟨he, hf⟩ => ?_, fun hr hm hp hc => ?_,
    fun hr hm hp ho => ?_, fun reason hr hm => step_marked hr hm⟩
  · obtain ⟨-, -, hp, -⟩ := emitEnabled_iff.mp he
    exact not_acceptEnabled_of_emit hp ha
  · obtain ⟨-, -, hp, -⟩ := finalEnabled_iff.mp hf
    exact not_acceptEnabled_of_emit hp ha
  · simpa [atLastByte_of_emitEnabled he] using atLastByte_of_finalEnabled hf
  · exact ⟨_, step_idle hr hm hp hc, rfl⟩
  · exact ⟨_, step_hold hr hm hp ho, rfl⟩

/-- Settles O28: the writes of R91 for SHOW's byte and no payload. -/
theorem showIsAcceptedAndLatched : Obligations.ShowIsAcceptedAndLatched := fun _ hp hm =>
  exec_of_payload (i := .showCmd) rfl hp hm

/-- Settles O29: the writes of R91 for SET_PIXEL's payload, its bytes as remainders. -/
theorem setPixelIsAcceptedAndLatched : Obligations.SetPixelIsAcceptedAndLatched := by
  intro s index r g b hp hm hindex
  have hi : payloadOf (.setPixel index r g b) = some (pixelPayload index r g b) := if_pos hindex
  rw [exec_of_payload hi hp hm, accept_of_length s _ (pixelPayload_length index r g b), ofNat_mod_byte index,
    ← mask8_eq_mod, ← mask8_eq_mod, ← mask8_eq_mod]
  rfl

/-- Settles O30: the writes of R91 for BRIGHTNESS's one byte, the clamped value. -/
theorem brightnessIsAcceptedAndLatched : Obligations.BrightnessIsAcceptedAndLatched := by
  intro s value hp hm
  rw [exec_of_payload (i := .brightness value) rfl hp hm, accept_of_length s _ List.length_singleton, ← clamp8_eq]
  rfl

/-- Settles O32: such an index has no payload, and the reason of the mark is the index. -/
theorem indexAboveSixteenBitsMarksTheState : Obligations.IndexAboveSixteenBitsMarksTheState := by
  intro s index r g b hp hm hindex
  have hi : payloadOf (.setPixel index r g b) = none := if_neg (Nat.not_le.mpr hindex)
  obtain ⟨reason, he, ⟨hres, -⟩ | ⟨_, _, _, _, hset, -, rfl⟩⟩ := exec_of_no_payload hi hp hm
  · cases hres
  · cases hset
    exact he

end Sys2Proof.Machine
end

/-! ## The commands (42_commands.md): requests issued one after another, and the bytes each command delivers -/

section
/-! SUPPORT. Runs one after another, and the inputs of a plain client as those of a delivery (R100). -/

namespace Sys2Proof.Machine

variable {s t : State} {c : Request}

/-- A run that goes on with a second one. -/
theorem run_add {m : Nat} (n : Nat) (h : run m s = .next t) : run (m + n) s = run n t := by
  induction m generalizing s with
  | zero => cases h; rw [Nat.zero_add]
  | succ m ih =>
    obtain ⟨u, hu, ht⟩ := run_succ_next h
    rw [Nat.succ_add, run_succ _ hu, ih ht]

@[simp] theorem noReset_replicate_take (n : Nat) : noReset (List.replicate n PortInputs.take) = true := by
  simp [noReset, PortInputs.take]

@[simp] theorem readyCount_replicate_take (n : Nat) : readyCount (List.replicate n PortInputs.take) = n := by
  simp [readyCount, List.countP_replicate, PortInputs.take]

/-- A request with a frame is presented once, and then the sink takes as often as the frame has bytes. -/
theorem requestInputs_of_payload {p : List Byte} (hi : payloadOf (decodeRequest c) = some p) :
    requestInputs c = .present c :: List.replicate (frame (cmdByte (decodeRequest c)) p).length .take := by
  simp [requestInputs, frameOf, hi]

/-- `Delivers` with a sink that takes in every step: as many steps as the frame has bytes put it on the stream. -/
theorem run_of_delivers {i : Instr} {f : List Byte} {n : Nat} {rest : List PortInputs} (hd : Delivers i f)
    (hs : s.Inv) (hp : s.phase = .idle) (hm : s.refused = none) (hf : f.length = n + 1)
    (hin : s.inputs = List.replicate (n + 1) .take ++ rest) :
    ∃ t, exec i s = .next t ∧ run (n + 1) t = .next { s with stream := s.stream ++ f, inputs := rest } := by
  obtain ⟨t, ht, -, -, -, hdeliver⟩ := hd s hs hp hm
  have hsplit : List.replicate n .take ++ [PortInputs.take] = List.replicate (n + 1) .take :=
    List.replicate_succ'.symm
  obtain ⟨u, hrun, hu, hrest⟩ := hdeliver (List.replicate n .take) .take rest
    (by rw [hin, ← hsplit, List.append_assoc, List.singleton_append])
    (by rw [hsplit, noReset_replicate_take]) rfl (by rw [hsplit, readyCount_replicate_take, hf])
  rw [List.length_replicate, hu, hrest] at hrun
  exact ⟨t, ht, hrun⟩

/-- One request of the plain client: its frame goes to the stream whole, and the block is back in `IDLE`. -/
theorem run_requestInputs {rest : List PortInputs} (hs : s.Inv) (hp : s.phase = .idle) (hm : s.refused = none)
    (hc : hasFrame (decodeRequest c) = true) (hin : s.inputs = requestInputs c ++ rest) :
    run (requestInputs c).length s =
      .next { s with stream := s.stream ++ frameBytes (decodeRequest c), inputs := rest } := by
  obtain ⟨p, hi⟩ := payload_of_hasFrame hc
  have hd : Delivers (decodeRequest c) (frame (cmdByte (decodeRequest c)) p) :=
    everyAcceptedCommandDeliversItsFrame _ _ (by simp [frameOf, hi])
  rw [requestInputs_of_payload hi, frame_length, List.cons_append] at hin
  have hacc : step s = exec (decodeRequest c) s.advance :=
    step_accept (by rw [ports_cons hin]; rfl) hm hp (by rw [ports_cons hin]; rfl)
  obtain ⟨t, ht, hrun⟩ := run_of_delivers hd (inv_advance hs) hp hm (frame_length _ p)
    (by rw [State.advance_inputs, hin, List.tail_cons])
  rw [requestInputs_of_payload hi, List.length_cons, List.length_replicate, frame_length,
    run_succ _ (hacc.trans ht), hrun, frameBytes_of_payload hi]
  rfl

/-- Settles O42, by induction on the requests: the first one's run leads to a state the others are issued from, which
differs from the first state in the stream alone. -/
theorem issuedCommandsReachTheStreamInOrder : Obligations.IssuedCommandsReachTheStreamInOrder := by
  intro s cs
  induction cs generalizing s with
  | nil => intro _ _ _ _; simp [driveRequests, State.withRequests]
  | cons c cs ih =>
    intro hs hp hm hall
    obtain ⟨hc, hcs⟩ := List.forall_mem_cons.mp hall
    have hfirst : run (requestInputs c).length (s.withRequests (c :: cs)) =
        .next (State.withRequests { s with stream := s.stream ++ frameBytes (decodeRequest c) } cs) :=
      run_requestInputs (Inv_congr hs rfl rfl rfl rfl rfl rfl) hp hm hc List.flatMap_cons
    have hlen : (driveRequests (c :: cs)).length = (requestInputs c).length + (driveRequests cs).length := by
      rw [driveRequests, List.flatMap_cons, List.length_append, driveRequests]
    have hothers := ih { s with stream := s.stream ++ frameBytes (decodeRequest c) }
      (Inv_congr hs rfl rfl rfl rfl rfl rfl) hp hm hcs
    rw [hlen, run_add _ hfirst, hothers, List.flatMap_cons, List.append_assoc]

end Sys2Proof.Machine
end

section
/-! The obligations on the four commands: each delivery is O26 at the frame of R65 (O11). -/

namespace Sys2Proof.Machine

/-- Settles O33: the frame of O11, delivered by O26; above 65535 it is O32; the example's checksum is computed. -/
theorem setPixelDeliversElevenBytes : Obligations.SetPixelDeliversElevenBytes := by
  obtain ⟨hframe, -, -⟩ := threeFrameFormats
  refine ⟨fun index r g b h => ?_, indexAboveSixteenBitsMarksTheState, ?_⟩
  · exact everyAcceptedCommandDeliversItsFrame _ _ (hframe index r g b h)
  · exact everyAcceptedCommandDeliversItsFrame _ _ (by decide +kernel)

/-- Settles O34: the frame of O11, delivered by O26; at the two ends of the clamp and in the example the checksum is
computed. -/
theorem brightnessDeliversSevenBytes : Obligations.BrightnessDeliversSevenBytes := by
  obtain ⟨-, hframe, -⟩ := threeFrameFormats
  refine ⟨fun value => ?_, fun value h => ?_, fun value h => ?_, ?_⟩ <;> apply everyAcceptedCommandDeliversItsFrame
  · exact hframe value
  · rw [frameOf_brightness, clamp8_of_neg h]
    decide +kernel
  · rw [frameOf_brightness, clamp8_of_gt h]
    decide +kernel
  · decide +kernel

/-- Settles O35: the frame of O11, delivered by O26. -/
theorem showDeliversSixBytes : Obligations.ShowDeliversSixBytes := by
  obtain ⟨-, -, hframe⟩ := threeFrameFormats
  exact everyAcceptedCommandDeliversItsFrame _ _ hframe

/-- Settles O31: such a code decodes to RESERVED (O12), whose handshake marks the state; the codes are counted. -/
theorem reservedCodeMarksTheState : Obligations.ReservedCodeMarksTheState := by
  refine ⟨fun s c hp hm hShow hPixel hBright => ?_, by decide +kernel⟩
  obtain ⟨-, -, -, hreserved⟩ := codeSelectsTheCommand c
  exact ⟨hreserved hShow hPixel hBright, commandHandshake_idle _ hp hm⟩

/-- The command is a function of the code and of the fields R67 says the code reads. -/
theorem decodeRequest_eq_of_read_fields {c d : Request} (hcode : c.code = d.code)
    (hpixel : c.code = 0x10#8 → c.index = d.index ∧ c.r = d.r ∧ c.g = d.g ∧ c.b = d.b)
    (hbright : c.code = 0x13#8 → c.value = d.value) : decodeRequest c = decodeRequest d := by
  obtain ⟨cShow, cPixel, cBright, cReserved⟩ := codeSelectsTheCommand c
  obtain ⟨dShow, dPixel, dBright, dReserved⟩ := codeSelectsTheCommand d
  rw [← hcode] at dShow dPixel dBright dReserved
  by_cases h04 : c.code = 0x04#8
  · rw [cShow h04, dShow h04]
  by_cases h10 : c.code = 0x10#8
  · obtain ⟨hindex, hr, hg, hb⟩ := hpixel h10
    rw [cPixel h10, dPixel h10, hindex, hr, hg, hb]
  by_cases h13 : c.code = 0x13#8
  · rw [cBright h13, dBright h13, hbright h13]
  · rw [cReserved h04 h10 h13, dReserved h04 h10 h13]

/-- A request enters a step as its command alone. -/
theorem step_eq_of_decodeRequest_eq (s : State) {c d : Request} (ready : Bool) (rest : List PortInputs)
    (h : decodeRequest c = decodeRequest d) :
    step { s with inputs := { reset := false, cmd := some c, outReady := ready } :: rest } =
      step { s with inputs := { reset := false, cmd := some d, outReady := ready } :: rest } := by
  cases s.refused with
  | some reason => exact Eq.trans (step_marked rfl rfl) (Eq.symm (step_marked rfl rfl))
  | none =>
    cases s.phase with
    | idle =>
      refine Eq.trans (step_accept rfl rfl rfl rfl) ?_
      rw [h]
      exact Eq.symm (step_accept rfl rfl rfl rfl)
    | emit =>
      cases ready with
      | false => exact Eq.trans (step_hold rfl rfl rfl rfl) (Eq.symm (step_hold rfl rfl rfl rfl))
      | true => exact Eq.trans (step_output rfl rfl rfl rfl) (Eq.symm (step_output rfl rfl rfl rfl))

/-- Settles O36: the two requests are one command, and a step sees no more of them. -/
theorem dontCareFieldsHaveNoEffect : Obligations.DontCareFieldsHaveNoEffect := by
  refine ⟨fun s c d ready rest hcode hpixel hbright => ?_, rfl⟩
  have hdec := decodeRequest_eq_of_read_fields hcode hpixel hbright
  exact ⟨hdec, step_eq_of_decodeRequest_eq s ready rest hdec⟩

end Sys2Proof.Machine
end

/-! ## Frame sequences (43_frame_sequences.md): the stream of each sequence, and the order of a tick -/

section
/-! SUPPORT. The frames of a sequence, and the sequences that are admitted (R120 to R125). -/

namespace Sys2Proof.Machine

theorem frameBytes_of_frameOf {i : Instr} {f : List Byte} (h : frameOf i = some f) : frameBytes i = f := by
  rw [frameBytes, h, Option.getD_some]

theorem frameBytes_setPixel_length {index : Nat} (r g b : Nat) (h : index ≤ maxIndex) :
    (frameBytes (.setPixel index r g b)).length = 11 := by
  rw [frameBytes_of_frameOf (frameOf_setPixel r g b h), frame_length, pixelPayload_length]

/-- The stream of 11-byte frames and one trailing SHOW (R121, R122, R125). -/
theorem length_pixels_then_show {sets : List Instr} (h : ∀ i ∈ sets, (frameBytes i).length = 11) :
    ((sets ++ [Instr.showCmd]).flatMap frameBytes).length = 11 * sets.length + 6 := by
  induction sets with
  | nil => rfl
  | cons i sets ih =>
    obtain ⟨hi, hsets⟩ := List.forall_mem_cons.mp h
    rw [List.cons_append, List.flatMap_cons, List.length_append, hi, ih hsets, List.length_cons]
    omega

/-- A sweep of an admitted count in an admitted order (R121, R122). -/
theorem sweep_of_perm {n : Nat} {order : List Nat} (r g b : Nat) (h1 : 1 ≤ n) (hn : n ≤ 65536)
    (horder : order.Perm (List.range n)) : sweep n order r g b = .ok (paintAll order r g b) := by
  have hcount : ledCountOk n = true := by simp [ledCountOk, h1, hn]
  have hadmitted : orderAdmitted n order = true := List.isPerm_iff.mpr horder
  rw [sweep, if_pos hcount, if_pos hadmitted]

theorem redrawCommands_of_ne_nil {list : List PixelColor} (h : list ≠ []) : redrawCommands list =
    list.map (fun x => Instr.setPixel x.index x.r x.g x.b) ++ [.showCmd] :=
  if_neg (mt List.isEmpty_iff.mp h)

/-- A list of sequences expands exactly where its head and its tail do, to the one's commands before the other's. -/
theorem expandAll_cons_eq_ok {x : Sequence} {rest : List Sequence} {cs : List Instr} :
    expandAll (x :: rest) = .ok cs ↔
      ∃ commands more, x.expand = .ok commands ∧ expandAll rest = .ok more ∧ cs = commands ++ more := by
  rw [expandAll]
  cases x.expand <;> cases expandAll rest <;> simp [eq_comm]

/-- Sequences issued one after another (R120 item 1). -/
theorem expandAll_append {xs ys : List Sequence} {cs ds : List Instr} (hxs : expandAll xs = .ok cs)
    (hys : expandAll ys = .ok ds) : expandAll (xs ++ ys) = .ok (cs ++ ds) := by
  induction xs generalizing cs with
  | nil => cases hxs; exact hys
  | cons x xs ih =>
    obtain ⟨commands, more, hx, hmore, rfl⟩ := expandAll_cons_eq_ok.mp hxs
    exact expandAll_cons_eq_ok.mpr ⟨commands, more ++ ds, hx, ih hmore, List.append_assoc _ _ _⟩

end Sys2Proof.Machine
end

section
/-! SUPPORT. The stages of a tick: what each may issue, and a tick cut into its stages (R126). -/

namespace Sys2Proof.Machine

/-- A sequence of a tick that comes from this stage and is one the stage may issue. -/
def FiredBy (stage : TickStage) (x : TickStage × Sequence) : Prop := x.1 = stage ∧ stage.issues x.2 = true

variable {x : TickStage × Sequence} {stage : TickStage} {fired : List (TickStage × Sequence)}

theorem FiredBy.rank_eq (h : FiredBy stage x) : x.1.rank = stage.rank :=
  congrArg TickStage.rank h.1

theorem firedBy_quitCheck_iff : FiredBy .quitCheck x ↔
    ∃ n order, x = (TickStage.quitCheck, Sequence.blackout n order) := by
  obtain ⟨stage, sequence⟩ := x
  cases sequence <;> simp [FiredBy, TickStage.issues]

theorem firedBy_oneShot_iff : FiredBy .oneShot x ↔
    (∃ n order r g b, x = (TickStage.oneShot, Sequence.fillAll n order r g b)) ∨
    (∃ n order, x = (TickStage.oneShot, Sequence.blackout n order)) ∨ x = (TickStage.oneShot, Sequence.showNow) := by
  obtain ⟨stage, sequence⟩ := x
  cases sequence <;> simp [FiredBy, TickStage.issues]

theorem firedBy_heldBrightness_iff : FiredBy .heldBrightness x ↔
    ∃ v, x = (TickStage.heldBrightness, Sequence.brightnessShow v) := by
  obtain ⟨stage, sequence⟩ := x
  cases sequence <;> simp [FiredBy, TickStage.issues]

theorem firedBy_redraw_iff : FiredBy .redraw x ↔ ∃ list, x = (TickStage.redraw, Sequence.redraw list) := by
  obtain ⟨stage, sequence⟩ := x
  cases sequence <;> simp [FiredBy, TickStage.issues]

theorem TickStage.rank_injective : Function.Injective TickStage.rank := fun a b => by
  cases a <;> cases b <;> decide

theorem tickAdmitted_iff : tickAdmitted fired = true ↔
    (∀ x ∈ fired, FiredBy x.1 x) ∧ fired.Pairwise (fun x y => x.1.rank ≤ y.1.rank) := by
  simp [tickAdmitted, FiredBy, List.pairwise_map]

theorem firedBy_of_tickAdmitted (h : tickAdmitted fired = true) (hx : x ∈ fired) : FiredBy x.1 x :=
  (tickAdmitted_iff.mp h).1 x hx

theorem tickAdmitted_append {xs ys : List (TickStage × Sequence)} : tickAdmitted (xs ++ ys) = true ↔
    tickAdmitted xs = true ∧ tickAdmitted ys = true ∧ ∀ x ∈ xs, ∀ y ∈ ys, x.1.rank ≤ y.1.rank := by
  simp only [tickAdmitted_iff, List.forall_mem_append, List.pairwise_append]
  tauto

/-- Sequences of one stage are admitted in any order (log 19). -/
theorem tickAdmitted_of_firedBy (h : ∀ x ∈ fired, FiredBy stage x) : tickAdmitted fired = true := by
  refine tickAdmitted_iff.mpr ⟨fun x hx => ?_, List.pairwise_of_forall_mem_list fun x hx y hy => ?_⟩
  · obtain ⟨rfl, hissues⟩ := h x hx
    exact ⟨rfl, hissues⟩
  · rw [(h x hx).rank_eq, (h y hy).rank_eq]

/-- An admitted tick, or the end of one, whose stages all have at least this rank. -/
def AdmittedFrom (rank : Nat) (fired : List (TickStage × Sequence)) : Prop :=
  tickAdmitted fired = true ∧ ∀ x ∈ fired, rank ≤ x.1.rank

/-- No stage comes before the quit check. -/
theorem tickAdmitted_iff_admittedFrom_quitCheck :
    tickAdmitted fired = true ↔ AdmittedFrom TickStage.quitCheck.rank fired := by
  have hrank : ∀ stage : TickStage, TickStage.quitCheck.rank ≤ stage.rank := fun stage => by cases stage <;> decide
  exact ⟨fun h => ⟨h, fun x _ => hrank x.1⟩, fun h => h.1⟩

/-- After the held brightness keys only the redraw issues anything. -/
theorem admittedFrom_after_heldBrightness_iff :
    AdmittedFrom (TickStage.heldBrightness.rank + 1) fired ↔ ∀ x ∈ fired, FiredBy .redraw x := by
  have hlast : ∀ stage : TickStage, TickStage.heldBrightness.rank + 1 ≤ stage.rank → stage = .redraw := fun stage => by
    cases stage <;> decide
  constructor
  · intro ⟨hadm, hrank⟩ x hx
    exact hlast x.1 (hrank x hx) ▸ firedBy_of_tickAdmitted hadm hx
  · refine fun h => ⟨tickAdmitted_of_firedBy h, fun x hx => ?_⟩
    rw [(h x hx).rank_eq]
    decide

/-- The sequences of one stage may stand before those of any later ones. -/
theorem admittedFrom_append {now later : List (TickStage × Sequence)} (hnow : ∀ x ∈ now, FiredBy stage x)
    (hlater : AdmittedFrom (stage.rank + 1) later) : AdmittedFrom stage.rank (now ++ later) := by
  obtain ⟨hadm, hrank⟩ := hlater
  have hfrom : ∀ y ∈ later, stage.rank ≤ y.1.rank := fun y hy => Nat.le_of_succ_le (hrank y hy)
  refine ⟨tickAdmitted_append.mpr ⟨tickAdmitted_of_firedBy hnow, hadm, fun x hx y hy => ?_⟩,
    List.forall_mem_append.mpr ⟨fun x hx => (hnow x hx).rank_eq.ge, hfrom⟩⟩
  rw [(hnow x hx).rank_eq]
  exact hfrom y hy

/-- An admitted tick cut behind its first stage. -/
theorem exists_append_of_admittedFrom (h : AdmittedFrom stage.rank fired) :
    ∃ now later, fired = now ++ later ∧ (∀ x ∈ now, FiredBy stage x) ∧ AdmittedFrom (stage.rank + 1) later := by
  induction fired with
  | nil => exact ⟨[], [], rfl, by simp, h.1, by simp⟩
  | cons x rest ih =>
    obtain ⟨hadm, hfrom⟩ := h
    obtain ⟨hx, hrest⟩ := List.forall_mem_cons.mp hfrom
    obtain ⟨hfirst, hadmRest, hbefore⟩ := tickAdmitted_append (xs := [x]).mp hadm
    by_cases hstage : x.1 = stage
    · obtain ⟨now, later, rfl, hnow, hlater⟩ := ih ⟨hadmRest, hrest⟩
      have hissued : FiredBy stage x := hstage ▸ firedBy_of_tickAdmitted hfirst (List.mem_singleton_self x)
      exact ⟨x :: now, later, rfl, List.forall_mem_cons.mpr ⟨hissued, hnow⟩, hlater⟩
    · have hlt : stage.rank < x.1.rank := lt_of_le_of_ne hx fun he => hstage (TickStage.rank_injective he).symm
      exact ⟨[], x :: rest, rfl, by simp, hadm, List.forall_mem_cons.mpr ⟨hlt, fun y hy =>
        hlt.trans_le (hbefore x (List.mem_singleton_self x) y hy)⟩⟩

/-- A tick is admitted exactly where it is the four stages one after another, each issuing what it may (R126). -/
theorem tickAdmitted_iff_stages : tickAdmitted fired = true ↔
    ∃ quits shots held redraws, fired = quits ++ shots ++ held ++ redraws ∧
      (∀ x ∈ quits, FiredBy .quitCheck x) ∧ (∀ x ∈ shots, FiredBy .oneShot x) ∧
      (∀ x ∈ held, FiredBy .heldBrightness x) ∧ ∀ x ∈ redraws, FiredBy .redraw x := by
  rw [tickAdmitted_iff_admittedFrom_quitCheck]
  constructor
  · intro h
    obtain ⟨quits, _, rfl, hquits, h⟩ := exists_append_of_admittedFrom h
    obtain ⟨shots, _, rfl, hshots, h⟩ := exists_append_of_admittedFrom (stage := .oneShot) h
    obtain ⟨held, redraws, rfl, hheld, h⟩ := exists_append_of_admittedFrom (stage := .heldBrightness) h
    exact ⟨quits, shots, held, redraws, by simp only [List.append_assoc], hquits, hshots, hheld,
      admittedFrom_after_heldBrightness_iff.mp h⟩
  · rintro ⟨quits, shots, held, redraws, rfl, hquits, hshots, hheld, hredraws⟩
    rw [List.append_assoc, List.append_assoc]
    exact admittedFrom_append hquits <| admittedFrom_append (stage := .oneShot) hshots <|
      admittedFrom_append (stage := .heldBrightness) hheld <| admittedFrom_after_heldBrightness_iff.mpr hredraws

end Sys2Proof.Machine
end

section
/-! The obligations on the sequences. -/

namespace Sys2Proof.Machine

/-- Settles O38: the sweep is admitted, and each of its indices is one of `0 .. n-1`, so its frame has 11 bytes. -/
theorem sweepSendsEachPixelOnceThenShow : Obligations.SweepSendsEachPixelOnceThenShow := by
  intro n r g b order h1 hn horder
  refine ⟨_, sweep_of_perm r g b h1 hn horder, rfl, horder.map _, ?_, rfl⟩
  have hpixels : ∀ i ∈ order.map (fun index => Instr.setPixel index r g b), (frameBytes i).length = 11 := by
    intro i hi
    obtain ⟨index, hmem, rfl⟩ := List.mem_map.mp hi
    have hlt : index < n := List.mem_range.mp (horder.mem_iff.mp hmem)
    exact frameBytes_setPixel_length r g b (Nat.le_of_lt_succ (hlt.trans_le hn))
  rw [length_pixels_then_show hpixels, List.length_map, horder.length_eq, List.length_range]

/-- Settles O40: the list is admitted, and its indices fit 16 bits, so each frame has 11 bytes. -/
theorem redrawSendsChangedPixelsThenShow : Obligations.RedrawSendsChangedPixelsThenShow := by
  refine ⟨fun list hnodup hindex hne => ⟨_, ?_, rfl, ?_⟩, rfl⟩
  · rw [Sequence.expand, if_pos hnodup, redrawCommands_of_ne_nil hne]
  · have hpixels : ∀ i ∈ list.map (fun x => Instr.setPixel x.index x.r x.g x.b), (frameBytes i).length = 11 := by
      intro i hi
      obtain ⟨x, hmem, rfl⟩ := List.mem_map.mp hi
      exact frameBytes_setPixel_length x.r x.g x.b (hindex x hmem)
    rw [length_pixels_then_show hpixels, List.length_map]

/-- Settles O39: the frames of O11 one after the other. -/
theorem brightnessShowAndShowNowStreams : Obligations.BrightnessShowAndShowNowStreams := by
  obtain ⟨-, hbrightness, hshow⟩ := threeFrameFormats
  refine ⟨fun v => ⟨_, rfl, ?_⟩, _, rfl, ?_⟩
  · rw [List.flatMap_cons, List.flatMap_singleton, frameBytes_of_frameOf (hbrightness v), frameBytes_of_frameOf hshow]
    rfl
  · rw [List.flatMap_singleton, frameBytes_of_frameOf hshow]

/-- Settles O41: the tick in its stages, each stage's sequences by name; the second sentence is `expandAll_append`. -/
theorem tickSequencesFollowTheStepOrder : Obligations.TickSequencesFollowTheStepOrder := by
  refine ⟨fun fired => ?_, fun _ _ _ _ => expandAll_append⟩
  simp only [tickAdmitted_iff_stages, firedBy_quitCheck_iff, firedBy_oneShot_iff, firedBy_heldBrightness_iff,
    firedBy_redraw_iff]

end Sys2Proof.Machine
end

/-! ## Refusals, stuck sink and the end of a run (60_exceptions.md) -/

section
/-! SUPPORT. From a state that meets the invariant a step goes on or is the refusal of a mark (R140, R141), and the requests
behind a mark. -/

namespace Sys2Proof.Machine

variable {s : State} {c : Request}

/-- In `IDLE` a command is accepted or marks the state; either way `exec` goes on. -/
theorem exists_exec_next (i : Instr) (hp : s.phase = .idle) (hm : s.refused = none) : ∃ t, exec i s = .next t := by
  cases hi : payloadOf i with
  | some p => exact ⟨_, exec_of_payload hi hp hm⟩
  | none =>
    obtain ⟨reason, he, -⟩ := exec_of_no_payload hi hp hm
    exact ⟨_, he⟩

/-- An unmarked state that meets the invariant always has a next state (R34, R95, R140): in `EMIT` a sink that takes finds a
byte to take. -/
theorem exists_step_next (hs : s.Inv) (hm : s.refused = none) : ∃ t, step s = .next t := by
  cases hr : s.ports.reset with
  | true => exact ⟨_, step_reset hr⟩
  | false =>
    cases hp : s.phase with
    | idle =>
      cases hc : s.ports.cmd with
      | none => exact ⟨_, step_idle hr hm hp hc⟩
      | some c =>
        rw [step_accept hr hm hp hc]
        exact exists_exec_next _ hp hm
    | emit =>
      cases ho : s.ports.outReady with
      | false => exact ⟨_, step_hold hr hm hp ho⟩
      | true =>
        obtain ⟨t, -, ht, -⟩ := step_moves_one_byte hs hp hr ho
        exact ⟨t, ht⟩

/-- A next state of a marked state is the one after a reset (R95 case 3). -/
theorem reset_of_step_marked {t : State} {reason : RefuseReason} (h : step s = .next t)
    (hm : s.refused = some reason) : s.ports.reset = true := by
  cases hr : s.ports.reset with
  | true => rfl
  | false => cases (step_marked hr hm).symm.trans h

/-- The closed list of R141: the requests that are refused, each with its reason. -/
def RefusedFor (c : Request) (reason : RefuseReason) : Prop :=
  (reason = .reservedCode c.code ∧ c.code ≠ 0x04#8 ∧ c.code ≠ 0x10#8 ∧ c.code ≠ 0x13#8) ∨
    (reason = .indexOutOfRange c.index ∧ c.code = 0x10#8 ∧ 65535 < c.index)

/-- A request that is the command RESERVED has none of the three codes of R66. -/
theorem refusedFor_of_reserved {code : Byte} (h : decodeRequest c = .reserved code) :
    RefusedFor c (.reservedCode code) := by
  obtain ⟨hShow, hPixel, hBright, hReserved⟩ := codeSelectsTheCommand c
  have h04 : c.code ≠ 0x04#8 := fun hc => by cases (hShow hc).symm.trans h
  have h10 : c.code ≠ 0x10#8 := fun hc => by cases (hPixel hc).symm.trans h
  have h13 : c.code ≠ 0x13#8 := fun hc => by cases (hBright hc).symm.trans h
  cases (hReserved h04 h10 h13).symm.trans h
  exact .inl ⟨rfl, h04, h10, h13⟩

/-- A request that is the command SET_PIXEL has its code, and the index is the request's. -/
theorem refusedFor_of_setPixel {index r g b : Nat} (h : decodeRequest c = .setPixel index r g b)
    (hindex : maxIndex < index) : RefusedFor c (.indexOutOfRange index) := by
  obtain ⟨hShow, hPixel, hBright, hReserved⟩ := codeSelectsTheCommand c
  by_cases h10 : c.code = 0x10#8
  · cases (hPixel h10).symm.trans h
    exact .inr ⟨rfl, h10, hindex⟩
  · have h04 : c.code ≠ 0x04#8 := fun hc => by cases (hShow hc).symm.trans h
    have h13 : c.code ≠ 0x13#8 := fun hc => by cases (hBright hc).symm.trans h
    cases (hReserved h04 h10 h13).symm.trans h

/-- Of all steps only the accept step of a request that R141 refuses marks a state. -/
theorem request_of_step_marks {t : State} {reason : RefuseReason} (h : step s = .next t) (hm : s.refused = none)
    (ht : t.refused = some reason) :
    s.acceptEnabled = true ∧ ∃ c, s.ports.cmd = some c ∧ RefusedFor c reason := by
  have hmark : t.refused ≠ s.refused := by simp [hm, ht]
  rcases step_cases h with ⟨-, rfl⟩ | ⟨hr, -, hh⟩
  · exact absurd rfl hmark
  rcases hh with ⟨-, -, rfl⟩ | ⟨-, -, rfl⟩ | ⟨-, c, p, -, -, rfl⟩ | ⟨hp, c, why, hc, -, rfl, hwhy⟩ |
      ⟨-, -, n, b, -, -, -, rfl⟩ | ⟨-, -, -, rfl⟩
  · exact absurd rfl hmark
  · exact absurd rfl hmark
  · exact absurd rfl hmark
  · obtain rfl : why = reason := Option.some.inj ht
    refine ⟨acceptEnabled_iff.mpr ⟨hr, hm, hp, c, hc⟩, c, hc, ?_⟩
    rcases hwhy with ⟨hdec, rfl⟩ | ⟨index, r, g, b, hdec, hindex, rfl⟩
    · exact refusedFor_of_reserved hdec
    · exact refusedFor_of_setPixel hdec hindex
  · exact absurd rfl hmark
  · exact absurd rfl hmark

end Sys2Proof.Machine
end

section
/-! SUPPORT. A sink that takes no byte (R142). -/

namespace Sys2Proof.Machine

/-- No byte taken in the next `k + 1` steps: none in the first and none in the `k` after it. -/
theorem readyCount_take_succ {s : State} {k : Nat} (h : readyCount (s.inputs.take (k + 1)) = 0) :
    s.ports.outReady = false ∧ readyCount (s.inputs.tail.take k) = 0 := by
  cases hi : s.inputs with
  | nil => simp [State.ports, hi, PortInputs.quiet, readyCount]
  | cons x rest =>
    rw [hi, List.take_succ_cons, readyCount_cons, Nat.add_eq_zero_iff] at h
    obtain ⟨hx, hrest⟩ := h
    exact ⟨by simpa [ports_cons hi, readyCount] using hx, hrest⟩

/-- While the sink takes no byte of the frame in flight, each step only spends its inputs. -/
theorem run_of_stalled_sink {s : State} {k : Nat} (hp : s.phase = .emit) (hm : s.refused = none)
    (hn : noReset (s.inputs.take k) = true) (hc : readyCount (s.inputs.take k) = 0) :
    run k s = .next { s with inputs := s.inputs.drop k } := by
  induction k generalizing s with
  | zero => rfl
  | succ k ih =>
    obtain ⟨hr, hn'⟩ := noReset_take_succ hn
    obtain ⟨ho, hc'⟩ := readyCount_take_succ hc
    rw [run_succ k (step_hold hr hm hp ho), ih (s := s.advance) hp hm hn' hc', State.advance_inputs, List.drop_tail]
    rfl

end Sys2Proof.Machine
end

section
/-! SUPPORT. Every state reachable from power-on is framed, and without a truncation all its segments are whole (R151). -/

namespace Sys2Proof.Machine

/-- Segments that stand for no truncation event are whole frames. -/
theorem whole_of_cutEvents_nil {start : Nat} {segments : List Segment} (h : cutEvents start segments = []) :
    ∃ cs : List Instr, segments = cs.map Segment.whole := by
  induction segments generalizing start with
  | nil => exact ⟨[], rfl⟩
  | cons x rest ih =>
    cases x with
    | whole i =>
      obtain ⟨cs, rfl⟩ := ih h
      exact ⟨i :: cs, rfl⟩
    | cut i sent => simp [cutEvents] at h

/-- Every state reachable from power-on is framed: each step keeps the invariant and, with it, the framing. -/
theorem framed_of_run_resetWith {inputs : List PortInputs} {k : Nat} {t : State}
    (h : run k (State.resetWith inputs) = .next t) : t.Framed := by
  have hkeep : ∀ a b : State, a.Inv ∧ a.Framed → step a = .next b → b.Inv ∧ b.Framed := fun a b ⟨ha, hf⟩ hab =>
    ⟨everyStepKeepsTheInvariant a b ha hab, everyStepKeepsTheStreamFramed a b ha hf hab⟩
  exact (run_keeps hkeep (resetMeetsTheInvariant inputs) h).2

theorem idle_of_endsWell {s : State} (h : s.endsWell = true) : s.phase = .idle := by
  simp only [State.endsWell, Bool.and_eq_true, decide_eq_true_eq] at h
  obtain ⟨⟨hp, -⟩, -⟩ := h
  exact hp

end Sys2Proof.Machine
end

section
/-! The obligations on refusals, the stuck sink and the end of a run. -/

namespace Sys2Proof.Machine

/-- Settles O46: a reachable state is framed (O49), and one that ends well has no frame in flight; without a truncation
event the segments are whole frames. -/
theorem runThatEndsWellHoldsWholeFrames : Obligations.RunThatEndsWellHoldsWholeFrames := by
  intro inputs k t h hend
  obtain ⟨segments, hok, hst, htr⟩ := framed_of_run_resetWith h
  rw [inFlight_idle (idle_of_endsWell hend), List.append_nil] at hst
  refine ⟨⟨segments, hok, hst, htr⟩, fun hnone => ?_⟩
  obtain ⟨cs, rfl⟩ := whole_of_cutEvents_nil (htr.symm.trans hnone)
  exact ⟨cs, by rwa [List.all_map] at hok, by rwa [List.flatMap_map] at hst⟩

/-- Settles O43: a marked state resets or refuses, and any other goes on (`exists_step_next`). -/
theorem noStepFaults : Obligations.NoStepFaults := by
  intro s r hs hfault
  cases hm : s.refused with
  | some reason =>
    cases hr : s.ports.reset with
    | true => cases (step_reset hr).symm.trans hfault
    | false => cases (step_marked hr hm).symm.trans hfault
  | none =>
    obtain ⟨t, ht⟩ := exists_step_next hs hm
    cases ht.symm.trans hfault

/-- Settles O44: a marked state has no step but reset, which keeps the mark, and only the accept step of a refused request
sets one. -/
theorem refusedMarkIsNeverCleared : Obligations.RefusedMarkIsNeverCleared := by
  refine ⟨fun s t reason h hm => ?_, fun s reason hr hm => step_marked hr hm, fun s t reason => request_of_step_marks⟩
  cases (step_reset (reset_of_step_marked h hm)).symm.trans h
  exact hm

/-- Settles O45: each step only spends its inputs, so the phase stays `EMIT`. -/
theorem sinkThatNeverTakesLeavesTheBlockStuck : Obligations.SinkThatNeverTakesLeavesTheBlockStuck := by
  intro s k hp hm _ hn hc
  exact ⟨_, run_of_stalled_sink hp hm hn hc, rfl, hp, by simp [State.cmdReady, hp]⟩

/-- Settles O50: either step is the reset event, which reads nothing of the other ports. -/
theorem resetWinsOverAHandshake : Obligations.ResetWinsOverAHandshake := fun _ _ _ _ =>
  (step_reset rfl).trans (step_reset rfl).symm

end Sys2Proof.Machine
end

/-! ## Reset and hazards (70_reset_and_hazards.md) -/

section
/-! SUPPORT. What the latch of an accepted command holds of its frame, and what of a step in mid-frame does not depend on
the command port. -/

namespace Sys2Proof.Machine

/-- The latch of R91 is the frame less its last byte, the checksum. -/
theorem latch_eq_take_frame (cmd : Byte) (p : List Byte) :
    [marker0, marker1] ++ frameBody cmd p = (frame cmd p).take ((frame cmd p).length - 1) := by
  rw [← List.dropLast_eq_take]
  exact List.dropLast_concat.symm

/-- In mid-frame the state holds the frame of one command of R100: its latch, its length and an offset inside it, and the
part sent is the frame up to that offset (R22 to R24). -/
theorem frame_of_mid_frame {s : State} (hs : s.Inv) (hp : s.phase = .emit) :
    ∃ i f, frameOf i = some f ∧ s.fb = f.take (f.length - 1) ∧ s.flen = some f.length ∧ s.pos ≤ f.length - 1 ∧
      s.inFlight = f.take s.pos := by
  obtain ⟨i, p, hi, hfb, hfl, hpos, -⟩ := Inv_mid_frame hs hp
  have hlatch : s.fb = (frame (cmdByte i) p).take ((frame (cmdByte i) p).length - 1) :=
    hfb.trans (latch_eq_take_frame _ p)
  have hle : s.pos ≤ (frame (cmdByte i) p).length - 1 := by rwa [frame_length]
  refine ⟨i, frame (cmdByte i) p, by simp [frameOf, hi], hlatch, by rw [hfl, frame_length], hle, ?_⟩
  rw [inFlight_emit hp, hlatch, List.take_take, Nat.min_eq_left hle]

/-- From `IDLE` a command with a frame is latched from offset 0, and no byte of it is sent (R91). -/
theorem exec_latches_frame {s : State} {i : Instr} {f : List Byte} (hf : frameOf i = some f) (hp : s.phase = .idle)
    (hm : s.refused = none) :
    ∃ t, exec i s = .next t ∧ t.stream = s.stream ∧ t.phase = .emit ∧ t.pos = 0 ∧ t.flen = some f.length ∧
      t.fb = f.take (f.length - 1) := by
  obtain ⟨p, hi, rfl⟩ := frameOf_eq_some hf
  exact ⟨_, exec_of_payload hi hp hm, rfl, rfl, rfl, by rw [State.accept_flen, frame_length],
    latch_eq_take_frame (cmdByte i) p⟩

/-- In mid-frame a step depends on the inputs it samples through reset and `out_ready` alone. -/
theorem step_emit_congr {s t : State} (hp : s.phase = .emit) (hadv : s.advance = t.advance)
    (hreset : s.ports.reset = t.ports.reset) (hready : s.ports.outReady = t.ports.outReady) : step s = step t := by
  cases hr : s.ports.reset with
  | true => rw [step_reset hr, step_reset (hreset.symm.trans hr), hadv]
  | false =>
    have hr' : t.ports.reset = false := hreset.symm.trans hr
    have hp' : t.phase = .emit := (congrArg State.phase hadv).symm.trans hp
    cases hm : s.refused with
    | some reason =>
      have hm' : t.refused = some reason := (congrArg State.refused hadv).symm.trans hm
      rw [step_marked hr hm, step_marked hr' hm']
    | none =>
      have hm' : t.refused = none := (congrArg State.refused hadv).symm.trans hm
      cases ho : s.ports.outReady with
      | false => rw [step_hold hr hm hp ho, step_hold hr' hm' hp' (hready.symm.trans ho), hadv]
      | true => rw [step_output hr hm hp ho, step_output hr' hm' hp' (hready.symm.trans ho), hadv]

end Sys2Proof.Machine
end

section
/-! The obligations on reset and hazards. -/

namespace Sys2Proof.Machine

/-- Settles O48: the invariant gives the frame in flight and the framing puts its sent part at the end of the stream; the
reset event (`step_reset`) leaves `IDLE` without a mark, so the next command is latched afresh. -/
theorem resetInMidFrameTruncatesAndIsRecorded : Obligations.ResetInMidFrameTruncatesAndIsRecorded := by
  intro s hs hframed hp hr
  obtain ⟨segments, -, hst, -⟩ := hframed
  obtain ⟨i, f, hf, hfb, hfl, hpos, hsent⟩ := frame_of_mid_frame hs hp
  have hm : s.advance.resetBlock.refused = none := hs.emit_not_refused hp
  exact ⟨_, i, f, _, hf, hfb, hfl, hpos, hsent, hst.symm, step_reset hr, rfl, rfl, rfl, rfl, rfl, rfl,
    fun _ _ hg => exec_latches_frame hg rfl hm⟩

/-- Settles O47: the step is the reset event, whose writes are R170's. -/
theorem resetEventLeavesTheResetValues : Obligations.ResetEventLeavesTheResetValues := fun _ hr =>
  ⟨_, step_reset hr, rfl, rfl, rfl, rfl, rfl, rfl, rfl, rfl, rfl⟩

/-- Settles O51: `exec` of a busy block changes nothing, and a step in mid-frame does not read the command port. -/
theorem requestInMidFrameIsNotTaken : Obligations.RequestInMidFrameIsNotTaken :=
  ⟨fun _ i hp hm => exec_busy i hp hm, fun _ _ _ _ hp => step_emit_congr hp rfl rfl rfl⟩

end Sys2Proof.Machine
end

/-! ## The word of port wires (30_encoding.md section 2): packing and reading its fields, the round trip, and the step
that runs a word -/

section
/-! SUPPORT. A word of fields laid end to end, lowest first: what `bitField` (R6) reads of it. -/

namespace Sys2Proof

variable {low rest v n m k : Nat}

/-- The lowest field reads back, whatever stands above it. -/
theorem bitField_lowest (hv : v < 2 ^ k) (rest : Nat) : bitField (v + 2 ^ k * rest) 0 k = v := by
  rw [bitField, pow_zero, Nat.div_one, Nat.add_mul_mod_self_left, Nat.mod_eq_of_lt hv]

/-- The topmost field reads back. -/
theorem bitField_of_lt (hv : v < 2 ^ k) : bitField v 0 k = v := bitField_lowest hv 0

/-- A read above the lowest field is a read of the fields that follow it. -/
theorem bitField_above (hlow : low < 2 ^ n) (rest lo k : Nat) :
    bitField (low + 2 ^ n * rest) (n + lo) k = bitField rest lo k := by
  rw [bitField, pow_add, ← Nat.div_div_eq_div_mul, Nat.add_mul_div_left _ _ (Nat.two_pow_pos n),
    Nat.div_eq_of_lt hlow, Nat.zero_add, bitField]

/-- Fields of `n` and `m` bits laid end to end take `n + m` bits. -/
theorem add_two_pow_mul_lt (hlow : low < 2 ^ n) (hrest : rest < 2 ^ m) : low + 2 ^ n * rest < 2 ^ (n + m) :=
  calc low + 2 ^ n * rest < 2 ^ n * (rest + 1) := by rw [Nat.mul_succ]; omega
    _ ≤ 2 ^ n * 2 ^ m := Nat.mul_le_mul_left _ hrest
    _ = 2 ^ (n + m) := (pow_add 2 n m).symm

end Sys2Proof
end

section
/-! SUPPORT. The layout of a request's word (log 4), and the requests whose fields fit the port. -/

namespace Sys2Proof

variable {p : Params} {c : Request} {i : Instr} {w : Nat}

/-- Every field of the request fits its wires (R27). -/
structure Request.Fits (p : Params) (c : Request) : Prop where
  index : c.index < 2 ^ 16
  r : c.r < 2 ^ p.chW
  g : c.g < 2 ^ p.chW
  b : c.b < 2 ^ p.chW
  value : fitsSigned p.briW c.value = true

/-- The word is its six fields laid end to end. -/
theorem wordOfRequest_eq_nested (p : Params) (c : Request) : wordOfRequest p c =
    c.code.toNat + 2 ^ 8 * (c.index + 2 ^ 16 * (c.r + 2 ^ p.chW * (c.g + 2 ^ p.chW * (c.b + 2 ^ p.chW *
      (BitVec.ofInt p.briW c.value).toNat)))) := by
  rw [wordOfRequest]
  ring

/-- A request that fits has a word of the port's width. -/
theorem wordOfRequest_lt (hc : c.Fits p) : wordOfRequest p c < 2 ^ p.requestBits := by
  have hbits : p.requestBits = 8 + (16 + (p.chW + (p.chW + (p.chW + p.briW)))) := by
    rw [Params.requestBits]; omega
  rw [wordOfRequest_eq_nested, hbits]
  exact add_two_pow_mul_lt c.code.isLt (add_two_pow_mul_lt hc.index (add_two_pow_mul_lt hc.r
    (add_two_pow_mul_lt hc.g (add_two_pow_mul_lt hc.b (BitVec.isLt _)))))

/-- The value of the port's two's complement wires is the integer they were driven with (R27). -/
theorem toInt_ofInt_of_fitsSigned {v : Int} (hw : 0 < w) (hv : fitsSigned w v = true) :
    (BitVec.ofInt w v).toInt = v := by
  simp only [fitsSigned, Bool.and_eq_true, decide_eq_true_eq] at hv
  exact BitVec.toInt_ofInt_eq_self hw hv.1 hv.2

/-- The wires of a request that fits carry exactly that request: each field is read above the fields below it. -/
theorem requestOfWord_wordOfRequest (hw : 0 < p.briW) (hc : c.Fits p) :
    requestOfWord p (wordOfRequest p c) = c := by
  have hcode : c.code.toNat < 2 ^ 8 := c.code.isLt
  have hg : 24 + p.chW = 8 + (16 + (p.chW + 0)) := by omega
  have hb : 24 + 2 * p.chW = 8 + (16 + (p.chW + (p.chW + 0))) := by omega
  have hvalue : 24 + 3 * p.chW = 8 + (16 + (p.chW + (p.chW + (p.chW + 0)))) := by omega
  rw [wordOfRequest_eq_nested, requestOfWord, Request.mk.injEq]
  refine ⟨?readCode, ?readIndex, ?readR, ?readG, ?readB, ?readValue⟩
  case readCode => rw [bitField_lowest hcode, BitVec.ofNat_toNat, BitVec.setWidth_eq]
  case readIndex => rw [bitField_above hcode _ 0, bitField_lowest hc.index]
  case readR => rw [bitField_above hcode _ 16, bitField_above hc.index _ 0, bitField_lowest hc.r]
  case readG => rw [hg, bitField_above hcode, bitField_above hc.index, bitField_above hc.r, bitField_lowest hc.g]
  case readB =>
    rw [hb, bitField_above hcode, bitField_above hc.index, bitField_above hc.r, bitField_above hc.g,
      bitField_lowest hc.b]
  case readValue =>
    rw [hvalue, bitField_above hcode, bitField_above hc.index, bitField_above hc.r, bitField_above hc.g,
      bitField_above hc.b, bitField_of_lt (BitVec.isLt _), BitVec.ofNat_toNat, BitVec.setWidth_eq,
      toInt_ofInt_of_fitsSigned hw hc.value]

theorem fitsSigned_zero (w : Nat) : fitsSigned w 0 = true := by
  simp [fitsSigned]

/-- The request of a well-formed command fits: the fields it reads by its well-formedness, the don't-care fields
as 0. -/
theorem fits_encodeRequest (hi : i.wf p = true) : (encodeRequest i).Fits p := by
  have hch : 0 < 2 ^ p.chW := Nat.two_pow_pos _
  have h16 : 0 < 2 ^ 16 := Nat.two_pow_pos _
  cases i with
  | showCmd => exact ⟨h16, hch, hch, hch, fitsSigned_zero _⟩
  | setPixel index r g b =>
    simp only [Instr.wf, fitsUnsigned, Bool.and_eq_true, decide_eq_true_eq] at hi
    obtain ⟨⟨⟨hindex, hr⟩, hg⟩, hb⟩ := hi
    exact ⟨hindex, hr, hg, hb, fitsSigned_zero _⟩
  | brightness value => exact ⟨h16, hch, hch, hch, hi⟩
  | reserved code => exact ⟨h16, hch, hch, hch, fitsSigned_zero _⟩

/-- A well-formed command is read back from its request. -/
theorem decodeRequest_encodeRequest (hi : i.wf p = true) : decodeRequest (encodeRequest i) = i := by
  cases i with
  | showCmd => exact Laws.RequestRoundTrip.showCmd p hi
  | setPixel index r g b => exact Laws.RequestRoundTrip.setPixel index r g b p hi
  | brightness value => exact Laws.RequestRoundTrip.brightness value p hi
  | reserved code => exact Laws.RequestRoundTrip.reserved code p hi

theorem briW_pos_of_wf (hp : p.wf = true) : 0 < p.briW := by
  simp only [Params.wf, Bool.and_eq_true, decide_eq_true_eq] at hp
  omega

/-- A word decodes to a command exactly when it is no wider than the port and that is its request's command. -/
theorem decodeWord_eq_ok_iff :
    decodeWord p w = .ok i ↔ w < 2 ^ p.requestBits ∧ decodeRequest (requestOfWord p w) = i := by
  by_cases hw : w < 2 ^ p.requestBits <;> simp [decodeWord, hw]

/-- A word wider than the port is refused by name. -/
theorem decodeWord_of_too_wide (hw : 2 ^ p.requestBits ≤ w) : decodeWord p w = .error .wordTooWide :=
  if_neg (Nat.not_lt.mpr hw)

end Sys2Proof
end

section
/-! The obligations on the word encoding, the power-on state and the step that runs a word. -/

namespace Sys2Proof.Machine

/-- Settles O13: the fields of a well-formed command fit the port, so its word is within the port's width, carries its
request, and the request decodes to it. -/
theorem decodeInvertsEncode : Obligations.DecodeInvertsEncode := by
  intro p i hp hi
  have hfits := fits_encodeRequest hi
  refine decodeWord_eq_ok_iff.mpr ⟨wordOfRequest_lt hfits, ?_⟩
  rw [encode, requestOfWord_wordOfRequest (briW_pos_of_wf hp) hfits, decodeRequest_encodeRequest hi]

/-- Settles O14: each word is computed, and `2 ^ 64` is the first word wider than the port at the default widths. -/
theorem tableWordsDecodeToTheirRows : Obligations.TableWordsDecodeToTheirRows :=
  ⟨rfl, rfl, rfl, rfl, rfl, rfl, decodeWord_of_too_wide (Nat.le_refl _)⟩

/-- Settles O1: the values are those `State.reset` writes; loading the inputs changes no other field. -/
theorem powerOnStateHasTheResetValues : Obligations.PowerOnStateHasTheResetValues := fun _ =>
  ⟨rfl, rfl, rfl⟩

/-- Settles O37: the step is the accept step (`step_accept`) of the presented request, whose command is `i`. -/
theorem stepRunsThePresentedCommand : Obligations.StepRunsThePresentedCommand := by
  intro s p w i ready rest hp hm hw hin
  obtain ⟨-, hi⟩ := decodeWord_eq_ok_iff.mp hw
  have hports := ports_cons hin
  have hreset : s.ports.reset = false := congrArg PortInputs.reset hports
  have hcmd : s.ports.cmd = some (requestOfWord p w) := congrArg PortInputs.cmd hports
  rw [step_accept hreset hm hp hcmd, hi, advance_cons hin]

end Sys2Proof.Machine
end
